-- ==== Sys2Proof/Word.lean ====
section
/-! DEFINITION. The words of the block: bytes, byte sequences and the field widths of its records.
All integers are unsigned bit patterns, bit 0 the least significant (00_scope.md R7, R8). -/

namespace Sys2Proof

/-- A byte is a u8 (R9). -/
abbrev Byte := BitVec 8

/-- A byte sequence is a finite list of bytes, the first byte first (R9).
As a byte-addressed space (20_memory.md R45, R46) its addresses are `0` to `length - 1`, and
address `i` holds element `i`. -/
abbrev Bytes := List Byte

abbrev U3 := BitVec 3
abbrev U4 := BitVec 4
abbrev U16 := BitVec 16
abbrev U32 := BitVec 32

end Sys2Proof
end

