-- ==== Sys2Proof/Config.lean ====
section
/-! DEFINITION. What is fixed when a block is built (00_scope.md R6, 10_state.md R33): a
configuration of the model, not state. -/

namespace Sys2Proof

/-- `HDR_LEN`: the encoded header is 12 bytes (R6, 30_encoding.md R74). -/
def Config.hdrLen : Nat := 12

/-- `MAX_LABEL`: a label is at most 63 bytes (R6). -/
def Config.maxLabel : Nat := 63

/-- `SEP`: the label separator byte (R6, 42_name.md R100).
PRESUMED: the byte value is general knowledge in the spec itself (log entry 10), unsafe. -/
def Config.sep : Byte := 0x2E#8

/-- `TYPE_A`: the default of the parameter (R6, 44_resource_record.md R134).
PRESUMED: the value is general knowledge in the spec itself (log entry 9), unsafe. -/
def Config.typeA : U16 := 1#16

/-- `A_RDLEN`: an A record's data is exactly 4 bytes (R6). -/
def Config.aRdLen : Nat := 4

/-- `DGRAM_MAX`: the transport's bound on an inbound datagram; the block does not check it (R6). -/
def Config.dgramMax : Nat := 512

/-- The OPEN capacities of a physical block's ports (R6, 10_state.md R27, 45_message.md R141).
`none` means unbounded, which is what the model takes. -/
structure Ports where
  bufCap   : Option Nat
  outCap   : Option Nat
  cursorW  : Option Nat
  nameCap  : Option Nat
  rdataCap : Option Nat
  qlistCap : Option Nat
  rrlistCap : Option Nat
  deriving DecidableEq, Repr

/-- "unbounded in the model" (R6). -/
def Ports.unbounded : Ports :=
  { bufCap := none, outCap := none, cursorW := none, nameCap := none, rdataCap := none,
    qlistCap := none, rrlistCap := none }

/-- The OPEN parameters of a block, fixed when it is built (R6): the capacities of its ports and
its `TYPE_A`. `stepWithin` is the step of a block with any parameters. -/
structure Block where
  ports : Ports
  typeA : U16
  deriving DecidableEq, Repr

/-- The block that `step` is: unbounded ports (R6; DEDUCED, log entry 8) and the default
`TYPE_A` (R6; log entry 9). -/
def Config.block : Block := { ports := Ports.unbounded, typeA := Config.typeA }

end Sys2Proof
end

