-- ==== Sys2Proof/Syntax.lean ====
section
/-! DEFINITION. What the host presents: the records that stand at the ports, the request record
with its operation select, and the operations themselves, one constructor for each row of
spec/opcode_table.json. -/

namespace Sys2Proof

/-- A Header record: thirteen fields, in the order and with the widths of 10_state.md R24. -/
structure Header where
  id      : U16
  qr      : Bool
  opcode  : U4
  aa      : Bool
  tc      : Bool
  rd      : Bool
  ra      : Bool
  z       : U3
  rcode   : U4
  qdcount : U16
  ancount : U16
  nscount : U16
  arcount : U16
  deriving DecidableEq, Repr

/-- A Question record (10_state.md R25). At the port any byte sequence may stand in `name`. -/
structure Question where
  name   : Bytes
  qtype  : U16
  qclass : U16
  deriving DecidableEq, Repr

/-- A ResourceRecord record (10_state.md R26). At the port `rdlength` and the length of `rdata`
may differ. -/
structure ResourceRecord where
  name     : Bytes
  rtype    : U16
  rclass   : U16
  ttl      : U32
  rdlength : U16
  rdata    : Bytes
  deriving DecidableEq, Repr

/-- The fields of the request record (10_state.md R23). -/
inductive ReqField where
  | op | h | name | q | rr | qlist | rrlist | ibuf | off
  deriving DecidableEq, Repr

/-- The fields of the response record (10_state.md R28). -/
inductive RspField where
  | status | obuf | h | name | q | rr | qlist | newoff
  deriving DecidableEq, Repr

/-- The request record REQ (10_state.md R23). A field the host has not written holds no value
(10_state.md R43); `off` is a natural number and never wraps (R40). -/
structure Req where
  op     : Option U4
  h      : Option Header
  name   : Option Bytes
  q      : Option Question
  rr     : Option ResourceRecord
  qlist  : Option (List Question)
  rrlist : Option (List ResourceRecord)
  ibuf   : Option Bytes
  off    : Option Nat
  deriving DecidableEq, Repr

/-- The operations (30_encoding.md R66), one constructor for each row of spec/opcode_table.json.
Operands are whole request fields, so an operation carries none (R68). The two reserved rows
leave bits of `REQ.OP` open, so they carry the code as presented. -/
inductive Instr where
  | hdrEnc
  | hdrDec
  | nameEnc
  | nameDec
  | qEnc
  | qDec
  | rrEnc
  | rrDec
  | msgBuild
  | msgParse
  | reservedAB (op : U4)
  | reservedCF (op : U4)
  deriving DecidableEq, Repr

/-- The request formats (30_encoding.md R67). -/
inductive Format where
  | fh | fb | fn | fbo | fq | fr | fm | fx
  deriving DecidableEq, Repr

end Sys2Proof
end

