-- ==== Sys2Proof/Machine/State.lean ====
section
/-! DEFINITION. The state of the block: the request and response records and whether a
transaction is running (10_state.md R23, R28, R41), the reasons a step or a host move stops,
and the state after reset. -/

namespace Sys2Proof.Machine

/-- The error kinds (60_exceptions.md R155). An error is no trap: it ends the operation with a
STATUS, in a next state (R157, R166). -/
inductive ErrorKind where
  | truncated
  | invalidLabel
  | invalidRData
  | unsupportedCompression
  | illegalOperation
  deriving DecidableEq, Repr

/-- The six values of `RSP.STATUS` (10_state.md R30, 60_exceptions.md R156). -/
inductive Status where
  | ok
  | error (e : ErrorKind)
  deriving DecidableEq, Repr

/-- The response record RSP (10_state.md R28). A field that holds no value is `none` (R29). -/
structure Rsp where
  status : Option Status
  obuf   : Option Bytes
  h      : Option Header
  name   : Option Bytes
  q      : Option Question
  rr     : Option ResourceRecord
  qlist  : Option (List Question)
  newoff : Option Nat
  deriving DecidableEq, Repr

/-- A response record none of whose fields holds a value. -/
def Rsp.blank : Rsp :=
  { status := none, obuf := none, h := none, name := none, q := none, rr := none, qlist := none,
    newoff := none }

/-- A request record none of whose fields holds a value. -/
def blankReq : Req :=
  { op := none, h := none, name := none, q := none, rr := none, qlist := none, rrlist := none,
    ibuf := none, off := none }

/-- The whole state of the block (10_state.md R43). The working values of a transaction (R31)
exist only inside one step and are no state (DEDUCED, log entry 3). -/
structure State where
  req     : Req
  rsp     : Rsp
  /-- A transaction has been started and has not completed (10_state.md R41, 60_exceptions.md
  R174; DESIGN CHOICE, log entry 2). -/
  running : Bool
  deriving DecidableEq, Repr

/-- Why a move of the HOST has no result. No operation of the block ends in a fault. -/
inductive Fault where
  /-- Raised by a host read of a response field that holds no value (10_state.md R29,
  70_reset_and_hazards.md R175). Safe: the block gives such a read no content. -/
  | noValue (f : RspField)
  /-- Raised by a host read of RSP while a transaction runs: the host sees no response until it
  is complete (20_memory.md R57; DEDUCED, log entry 6). Safe. -/
  | responsePending (f : RspField)
  deriving DecidableEq, Repr

/-- Why a move has no outcome in the model. -/
inductive Refusal where
  /-- An operation that has no meaning in the model; none is left. Safe. -/
  | notModelled (mnemonic : String)
  /-- Raised by `hostStart` and by an operation whose request lacks a field it reads: a
  transaction starts with a complete REQ (10_state.md R41; DESIGN CHOICE, log entry 5). Safe. -/
  | incompleteRequest
  /-- Raised by `stepWithin` for a request over a port capacity: it cannot be presented, so it
  has no transaction (10_state.md R27). Safe. -/
  | requestExceedsCapacity
  /-- Raised by `stepWithin` for an output longer than `OUT_CAP` (45_message.md R141). Safe. -/
  | outputExceedsCapacity
  /-- Raised by `hostWrite` and `present` while a transaction runs: REQ stays unchanged until
  the response is complete (70_reset_and_hazards.md R180). Safe. -/
  | requestChanged
  /-- Raised by `hostStart` while a transaction runs: only one is in progress at a time
  (60_exceptions.md R165; DESIGN CHOICE, log entry 7). Safe. -/
  | startWhileRunning
  deriving DecidableEq, Repr

/-- What one step or one host move answers. -/
abbrev Result := Host.Outcome State Fault Refusal

/-- The state after reset: no response field, no STATUS and no request field holds a value, and
the block waits for its first request (10_state.md R43, 70_reset_and_hazards.md R175, R176). -/
def State.reset : State :=
  { req := blankReq, rsp := Rsp.blank, running := false }

end Sys2Proof.Machine
end

