-- ==== Sys2Proof/Machine/Ops.lean ====
section
/-! DEFINITION. The operations every unit shares: reading the input buffer, appending to the
output accumulator, and the two ways an operation ends. -/

namespace Sys2Proof.Machine

/-- A function of the pseudocode returns its result or raises one error (00_scope.md R12). -/
abbrev Codec (α : Type) := Except ErrorKind α

/-- The unsigned big-endian value of a byte sequence, in `w` bits (20_memory.md R49, R50). -/
def beValue (w : Nat) (bs : Bytes) : BitVec w :=
  bs.foldl (fun v b => (v <<< 8) ||| b.setWidth w) 0#w

/-- `ReadBytes(buf, off, n)` (20_memory.md R51): one bounds test, before any byte is read. -/
def readBytes (buf : Bytes) (off n : Nat) : Codec Bytes :=
  if off + n > buf.length then .error .truncated else .ok ((buf.drop off).take n)

/-- `MemRead(buf, off, n)` with `n = w / 8`, used at the widths 8, 16 and 32 (20_memory.md
R50). -/
def memRead (w : Nat) (buf : Bytes) (off : Nat) : Codec (BitVec w) :=
  match readBytes buf off (w / 8) with
  | .error e => .error e
  | .ok bs => .ok (beValue w bs)

/-- `BE(n, v)`: byte `i` is `(v >> (8 × (n − 1 − i))) & 0xFF` (20_memory.md R53). -/
def be (n v : Nat) : Bytes :=
  (List.range n).map fun i => BitVec.ofNat 8 (v >>> (8 * (n - 1 - i)))

/-- `MemWrite(addr, n, v)` on the output accumulator (20_memory.md R53). -/
def memWrite (out : Bytes) (addr n v : Nat) : Bytes :=
  out.take addr ++ be n v ++ out.drop (addr + n)

/-- `Emit(n, v)`: write at `olen`, which advances by `n` (20_memory.md R54). -/
def emit (out : Bytes) (n v : Nat) : Bytes := memWrite out out.length n v

/-- `EmitBytes(s)`: emit each byte of `s`, in order (20_memory.md R54). -/
def emitBytes (out s : Bytes) : Bytes := s.foldl (fun o b => emit o 1 b.toNat) out

/-- The accumulator at the start of every transaction (20_memory.md R54). -/
def outStart : Bytes := []

/-- The state after a transaction whose response record is `r`: RSP is overwritten whole
(70_reset_and_hazards.md R181), REQ is not written (60_exceptions.md R157), and the block waits
again. -/
def State.answered (s : State) (r : Rsp) : State := { s with rsp := r, running := false }

/-- `raise e` (60_exceptions.md R157): STATUS gets the code of `e`, no result field holds a
value, nothing else changes. -/
def raiseError (e : ErrorKind) (s : State) : State :=
  s.answered { Rsp.blank with status := some (.error e) }

/-- `return` (60_exceptions.md R158): STATUS is OK and the result fields in `results` hold their
values. -/
def returnOk (results : Rsp) (s : State) : State :=
  s.answered { results with status := some .ok }

/-- An operation ends in exactly one of the two ways (60_exceptions.md R163). -/
def conclude (r : Codec Rsp) (s : State) : Result :=
  match r with
  | .ok results => .next (returnOk results s)
  | .error e => .next (raiseError e s)

/-- The results of an encoder: `EmitBytes` of its bytes into the empty accumulator, which becomes
OBUF (20_memory.md R54, 60_exceptions.md R158). On an error the accumulator is dropped. -/
def encoded (r : Codec Bytes) : Codec Rsp :=
  r.map fun bs => { Rsp.blank with obuf := some (emitBytes outStart bs) }

end Sys2Proof.Machine
end

