-- ==== Sys2Proof/Machine/Capacity.lean ====
section
/-! DEFINITION. The port capacities of a physical block (00_scope.md R6, 10_state.md R27,
45_message.md R141). -/

namespace Sys2Proof.Machine

/-- A length within an OPEN capacity; `none` is unbounded. -/
def within (cap : Option Nat) (n : Nat) : Bool :=
  match cap with
  | none => true
  | some c => decide (n ≤ c)

/-- An offset that `CURSOR_W` bits can hold (10_state.md R40). -/
def cursorFits (w : Option Nat) (off : Nat) : Bool :=
  match w with
  | none => true
  | some w => decide (off < 2 ^ w)

/-- A test on a field that holds a value; one that holds none presents nothing. -/
def ifHeld {α : Type} (o : Option α) (t : α → Bool) : Bool :=
  match o with
  | none => true
  | some a => t a

/-- A question whose name a port can carry. -/
def questionFits (p : Ports) (q : Question) : Bool := within p.nameCap q.name.length

/-- A record whose name and data a port can carry. -/
def recordFits (p : Ports) (r : ResourceRecord) : Bool :=
  within p.nameCap r.name.length && within p.rdataCap r.rdata.length

/-- A request that can be presented at the ports (10_state.md R27): every field that holds a
value is within the capacity of its port (DEDUCED, log entry 8). -/
def requestFits (p : Ports) (r : Req) : Bool :=
  ifHeld r.name (fun n => within p.nameCap n.length) &&
  ifHeld r.q (questionFits p) &&
  ifHeld r.rr (recordFits p) &&
  ifHeld r.qlist (fun qs => within p.qlistCap qs.length && qs.all (questionFits p)) &&
  ifHeld r.rrlist (fun rs => within p.rrlistCap rs.length && rs.all (recordFits p)) &&
  ifHeld r.ibuf (fun b => within p.bufCap b.length) &&
  ifHeld r.off (cursorFits p.cursorW)

/-- An output no longer than `OUT_CAP` (45_message.md R141). -/
def outputFits (p : Ports) (r : Rsp) : Bool :=
  ifHeld r.obuf (fun b => within p.outCap b.length)

end Sys2Proof.Machine
end

