-- ==== Sys2Proof/Machine/Flags.lean ====
section
/-! DEFINITION. The flag word of the header and the status codes. The block has no condition
flags (10_state.md R32): QR, AA, TC, RD and RA are data, packed and unpacked here. -/

namespace Sys2Proof.Machine

/-- A boolean field as a 16-bit word: false is 0 and true is 1 (00_scope.md R8). -/
def flagBit (b : Bool) : U16 := if b then 1#16 else 0#16

/-- The flag word (41_header.md R90, 30_encoding.md R75). The masks of the source are the
identity at ports of exact width (30_encoding.md R68). -/
def packFlags (h : Header) : U16 :=
  (flagBit h.qr <<< 15) ||| (h.opcode.setWidth 16 <<< 11) ||| (flagBit h.aa <<< 10) |||
    (flagBit h.tc <<< 9) ||| (flagBit h.rd <<< 8) ||| (flagBit h.ra <<< 7) |||
    (h.z.setWidth 16 <<< 4) ||| h.rcode.setWidth 16

/-- `w[i]`, tested directly (00_scope.md R7, 41_header.md R92). -/
def testBit (w : U16) (i : Nat) : Bool := w.getLsbD i

/-- The field of `n` bits of `w` whose lowest bit is `lo`: `(w >> lo) & (2^n − 1)` (41_header.md
R92). -/
def flagField (w : U16) (lo n : Nat) : BitVec n := (w >>> lo).setWidth n

/-- The 4-bit codes of `RSP.STATUS` (60_exceptions.md R156). -/
def Status.code : Status → U4
  | .ok => 0x0#4
  | .error .truncated => 0x1#4
  | .error .invalidLabel => 0x2#4
  | .error .invalidRData => 0x3#4
  | .error .unsupportedCompression => 0x4#4
  | .error .illegalOperation => 0x5#4

end Sys2Proof.Machine
end

