-- ==== Sys2Proof/WellFormed.lean ====
section
/-! DEFINITION. Which terms stand for something the host can present: operations, records that
meet the source's data invariants, and port capacities. -/

namespace Sys2Proof

/-- A reserved constructor carries a code of its own row: mask 0xE and match 0xA, or mask 0xC
and match 0xC (spec/opcode_table.json). Every other operation is well formed. -/
def Instr.wellFormed : Instr → Bool
  | .reservedAB op => op &&& 0xE#4 == 0xA#4
  | .reservedCF op => op &&& 0xC#4 == 0xC#4
  | .hdrEnc | .hdrDec | .nameEnc | .nameDec | .qEnc | .qDec | .rrEnc | .rrDec | .msgBuild
  | .msgParse => true

/-- A label that an encoded name may hold: 1 to 63 bytes (30_encoding.md R78). -/
def labelOk (l : Bytes) : Bool := decide (1 ≤ l.length) && decide (l.length ≤ Config.maxLabel)

/-- A label with no separator byte, as a dotted name yields it (00_scope.md R13). -/
def labelClean (l : Bytes) : Bool := !l.contains Config.sep

/-- The data checks of an encoded record (44_resource_record.md R125): the declared length is
the data's, and a record of type `typeA` has 4 bytes of data. -/
def ResourceRecord.dataOk (typeA : U16) (r : ResourceRecord) : Bool :=
  decide (r.rdlength.toNat = r.rdata.length) &&
    (decide (r.rtype ≠ typeA) || decide (r.rdata.length = Config.aRdLen))

/-- Capacities a physical block may have: `BUF_CAP` is at least `DGRAM_MAX`, and `CURSOR_W`
bits hold every offset from 0 to `BUF_CAP` inclusive (00_scope.md R6, 10_state.md R40). -/
def Ports.admissible (p : Ports) : Bool :=
  (match p.bufCap with
    | none => true
    | some b => decide (Config.dgramMax ≤ b)) &&
  (match p.cursorW, p.bufCap with
    | none, _ => true
    | some _, none => false
    | some w, some b => decide (b < 2 ^ w))

end Sys2Proof
end

