-- ==== Sys2Proof/Decode.lean ====
section
/-! DEFINITION. The operation select: the decoder of `REQ.OP` and its encoder (30_encoding.md
R65, R66). Every 4-bit value selects exactly one row, so the decoder is total and refuses
nothing. -/

namespace Sys2Proof

/-- The operation that a value of `REQ.OP` selects (30_encoding.md R66). -/
def decodeOp (w : U4) : Instr :=
  match w.toNat with
  | 0x0 => .hdrEnc
  | 0x1 => .hdrDec
  | 0x2 => .nameEnc
  | 0x3 => .nameDec
  | 0x4 => .qEnc
  | 0x5 => .qDec
  | 0x6 => .rrEnc
  | 0x7 => .rrDec
  | 0x8 => .msgBuild
  | 0x9 => .msgParse
  | 0xA => .reservedAB w
  | 0xB => .reservedAB w
  | _ => .reservedCF w

/-- The operation code of an operation (30_encoding.md R66). -/
def encode : Instr → U4
  | .hdrEnc => 0x0#4
  | .hdrDec => 0x1#4
  | .nameEnc => 0x2#4
  | .nameDec => 0x3#4
  | .qEnc => 0x4#4
  | .qDec => 0x5#4
  | .rrEnc => 0x6#4
  | .rrDec => 0x7#4
  | .msgBuild => 0x8#4
  | .msgParse => 0x9#4
  | .reservedAB op => op
  | .reservedCF op => op

/-- A wider value is presented at the 4-bit port as its low bits (30_encoding.md R68;
DEDUCED, log entry 12). -/
def opOfWord (w : Nat) : U4 := BitVec.ofNat 4 w

/-- The operation read from a table word. The request side has no length to decode
(30_encoding.md R71), so the number of bits does not matter. -/
def decodeTableWord (_nbits w : Nat) : Option Instr := some (decodeOp (opOfWord w))

end Sys2Proof
end

