-- ==== Sys2Proof/Machine/Operands.lean ====
section
/-! DEFINITION. The operand forms: which request fields each format reads and which response
fields it writes (30_encoding.md R67), and the reading of operands. Operands are whole request
fields (R68). -/

namespace Sys2Proof.Machine

/-- The format of each operation (30_encoding.md R67). -/
def formatOf : Instr → Format
  | .hdrEnc => .fh
  | .hdrDec => .fb
  | .nameEnc => .fn
  | .nameDec => .fbo
  | .qEnc => .fq
  | .qDec => .fbo
  | .rrEnc => .fr
  | .rrDec => .fbo
  | .msgBuild => .fm
  | .msgParse => .fb
  | .reservedAB _ => .fx
  | .reservedCF _ => .fx

/-- The request fields a format reads (30_encoding.md R67). -/
def readsOf : Format → List ReqField
  | .fh => [.op, .h]
  | .fb => [.op, .ibuf]
  | .fn => [.op, .name]
  | .fbo => [.op, .ibuf, .off]
  | .fq => [.op, .q]
  | .fr => [.op, .rr]
  | .fm => [.op, .h, .qlist, .rrlist]
  | .fx => [.op]

/-- The result fields an operation writes on OK, beside STATUS (30_encoding.md R67). -/
def writesOf : Instr → List RspField
  | .hdrEnc => [.obuf]
  | .hdrDec => [.h]
  | .nameEnc => [.obuf]
  | .nameDec => [.name, .newoff]
  | .qEnc => [.obuf]
  | .qDec => [.q, .newoff]
  | .rrEnc => [.obuf]
  | .rrDec => [.rr, .newoff]
  | .msgBuild => [.obuf]
  | .msgParse => [.h, .qlist]
  | .reservedAB _ => []
  | .reservedCF _ => []

/-- Whether a request field holds a value (10_state.md R43). -/
def reqHolds (r : Req) : ReqField → Bool
  | .op => r.op.isSome
  | .h => r.h.isSome
  | .name => r.name.isSome
  | .q => r.q.isSome
  | .rr => r.rr.isSome
  | .qlist => r.qlist.isSome
  | .rrlist => r.rrlist.isSome
  | .ibuf => r.ibuf.isSome
  | .off => r.off.isSome

/-- Whether a response field holds a value (10_state.md R29). -/
def rspHolds (r : Rsp) : RspField → Bool
  | .status => r.status.isSome
  | .obuf => r.obuf.isSome
  | .h => r.h.isSome
  | .name => r.name.isSome
  | .q => r.q.isSome
  | .rr => r.rr.isSome
  | .qlist => r.qlist.isSome
  | .newoff => r.newoff.isSome

/-- A complete request: `OP` and the fields its operation reads hold values (10_state.md
R41). -/
def requestComplete (r : Req) : Bool :=
  match r.op with
  | none => false
  | some w => (readsOf (formatOf (decodeOp w))).all (reqHolds r)

/-- Read one operand. A request that lacks it is no complete request (10_state.md R41;
DESIGN CHOICE, log entry 5). -/
def operand {α : Type} (o : Option α) (k : α → Result) : Result :=
  match o with
  | some a => k a
  | none => .refused .incompleteRequest

/-- Format FH: the header to encode. -/
def withHeader (s : State) (k : Header → Result) : Result := operand s.req.h k

/-- Format FB: the buffer to decode. -/
def withBuffer (s : State) (k : Bytes → Result) : Result := operand s.req.ibuf k

/-- Format FN: the name to encode. -/
def withName (s : State) (k : Bytes → Result) : Result := operand s.req.name k

/-- Format FBO: the buffer to decode and the offset to start at. -/
def withBufferAt (s : State) (k : Bytes → Nat → Result) : Result :=
  operand s.req.ibuf fun buf => operand s.req.off fun off => k buf off

/-- Format FQ: the question to encode. -/
def withQuestion (s : State) (k : Question → Result) : Result := operand s.req.q k

/-- Format FR: the record to encode. -/
def withRecord (s : State) (k : ResourceRecord → Result) : Result := operand s.req.rr k

/-- Format FM: the message to build (10_state.md R36). -/
def withMessage (s : State) (k : Header → List Question → List ResourceRecord → Result) : Result :=
  operand s.req.h fun h => operand s.req.qlist fun qs => operand s.req.rrlist fun rs => k h qs rs

/-- A Header record all of whose fields are 0 (30_encoding.md R70). -/
def zeroHeader : Header :=
  { id := 0#16, qr := false, opcode := 0#4, aa := false, tc := false, rd := false, ra := false,
    z := 0#3, rcode := 0#4, qdcount := 0#16, ancount := 0#16, nscount := 0#16, arcount := 0#16 }

/-- A Question record for the root, all other fields 0. -/
def zeroQuestion : Question := { name := [], qtype := 0#16, qclass := 0#16 }

/-- A ResourceRecord record for the root, all other fields 0. -/
def zeroRecord : ResourceRecord :=
  { name := [], rtype := 0#16, rclass := 0#16, ttl := 0#32, rdlength := 0#16, rdata := [] }

/-- Keep a field that holds a value; give one that holds none the value `a` if `need`. -/
def fillField {α : Type} (need : Bool) (a : α) (o : Option α) : Option α :=
  match o with
  | some v => some v
  | none => if need then some a else none

/-- A buffer of 12 zero bytes, which every decoder decodes. -/
def zeroBuffer : Bytes := List.replicate Config.hdrLen 0x00#8

/-- The host's placing of operation code `w` in REQ, with the operands `w` reads present: an
operand that holds a value keeps it, and one that holds none gets the zero record, the root
name, the empty list, the buffer of 12 zero bytes, or offset 0 (DESIGN CHOICE, log entry 11). -/
def placeOp (w : U4) (r : Req) : Req :=
  let need := fun f => (readsOf (formatOf (decodeOp w))).contains f
  { op := some w
    h := fillField (need .h) zeroHeader r.h
    name := fillField (need .name) [] r.name
    q := fillField (need .q) zeroQuestion r.q
    rr := fillField (need .rr) zeroRecord r.rr
    qlist := fillField (need .qlist) [] r.qlist
    rrlist := fillField (need .rrlist) [] r.rrlist
    ibuf := fillField (need .ibuf) zeroBuffer r.ibuf
    off := fillField (need .off) 0 r.off }

end Sys2Proof.Machine
end

