-- ==== Sys2Proof/Machine/Header.lean ====
section
/-! DEFINITION. The Header Codec (41_header.md): HDR_ENC and HDR_DEC. -/

namespace Sys2Proof.Machine

/-- `hdrEnc` (41_header.md R90): a Header record as 12 bytes; it never fails.
With `hdrDec` it meets the round trips of R94 and R95 (`hdrDec_wireHeader`, `exists_wireHeader`). -/
def hdrEnc (h : Header) : Bytes :=
  be 2 h.id.toNat ++ be 2 (packFlags h).toNat ++ be 2 h.qdcount.toNat ++ be 2 h.ancount.toNat ++
    be 2 h.nscount.toNat ++ be 2 h.arcount.toNat

/-- `hdrDec` (41_header.md R92): the length test comes first, so no later read can fail.
It takes each field from the bits where `hdrEnc` puts it (R94, R95). -/
def hdrDec (buf : Bytes) : Codec Header :=
  if buf.length < Config.hdrLen then .error .truncated
  else do
    let flags ← memRead 16 buf 2
    let id ← memRead 16 buf 0
    let qd ← memRead 16 buf 4
    let an ← memRead 16 buf 6
    let ns ← memRead 16 buf 8
    let ar ← memRead 16 buf 10
    .ok { id := id
          qr := testBit flags 15
          opcode := flagField flags 11 4
          aa := testBit flags 10
          tc := testBit flags 9
          rd := testBit flags 8
          ra := testBit flags 7
          z := flagField flags 4 3
          rcode := flagField flags 0 4
          qdcount := qd
          ancount := an
          nscount := ns
          arcount := ar }

/-- HDR_ENC (41_header.md R91). -/
def execHdrEnc (s : State) : Result :=
  withHeader s fun h => conclude (encoded (.ok (hdrEnc h))) s

/-- HDR_DEC (41_header.md R93): the header stands at offset 0; `REQ.OFF` is not read. -/
def execHdrDec (s : State) : Result :=
  withBuffer s fun buf =>
    conclude ((hdrDec buf).map fun h => { Rsp.blank with h := some h }) s

end Sys2Proof.Machine
end

