-- ==== Sys2Proof/Machine/Name.lean ====
section
/-! DEFINITION. The Name Codec (42_name.md): NAME_ENC and NAME_DEC. -/

namespace Sys2Proof.Machine

/-- `split(s, SEP)` (42_name.md R100): the pieces between separator bytes, in order, empty
pieces kept. -/
def split : Bytes → List Bytes
  | [] => [[]]
  | b :: s =>
    if b = Config.sep then [] :: split s
    else
      match split s with
      | [] => [[b]]
      | l :: ls => (b :: l) :: ls

/-- `join(ls, SEP)` (42_name.md R100): one separator byte between neighbours. -/
def join : List Bytes → Bytes
  | [] => []
  | [l] => l
  | l :: l' :: ls => l ++ Config.sep :: join (l' :: ls)

/-- The loop of `nameEnc` over the pieces (42_name.md R101): length byte, then raw bytes. -/
def encodeLabels : List Bytes → Codec Bytes
  | [] => .ok []
  | l :: ls =>
    if l.length = 0 ∨ l.length > Config.maxLabel then .error .invalidLabel
    else do
      let rest ← encodeLabels ls
      .ok (BitVec.ofNat 8 l.length :: l ++ rest)

/-- `nameEnc` (42_name.md R101): the root is one zero byte; other names are split and ended by
a zero byte. -/
def nameEnc (s : Bytes) : Codec Bytes :=
  if s = [] then .ok [0x00#8]
  else do
    let r ← encodeLabels (split s)
    .ok (r ++ [0x00#8])

/-- The four classes of a length byte (30_encoding.md R79). -/
inductive LengthClass where
  | terminator
  | label
  | invalid
  | pointer
  deriving DecidableEq, Repr

/-- The class of a length byte (30_encoding.md R79, 42_name.md R105). -/
def lengthClass (n : Byte) : LengthClass :=
  if n.toNat = 0x00 then .terminator
  else if n.toNat ≥ 0xC0 then .pointer
  else if n.toNat ≥ 0x40 then .invalid
  else .label

/-- The loop of `nameDec` at cursor `c` with the labels read so far (42_name.md R103), its checks
in the order of R106. The first argument bounds the passes: R108 bounds them by
`len(buf) − off + 1`, and `nameDec` gives that many, so the first case is never reached
(DESIGN CHOICE, log entry 14). -/
def nameDecLoop (buf : Bytes) : Nat → Nat → List Bytes → Codec (Bytes × Nat)
  | 0, _, _ => .error .truncated
  | passes + 1, c, labels =>
    match memRead 8 buf c with
    | .error e => .error e
    | .ok n =>
      match lengthClass n with
      | .terminator => .ok (join labels, c + 1)
      | .pointer => .error .unsupportedCompression
      | .invalid => .error .invalidLabel
      | .label =>
        match readBytes buf (c + 1) n.toNat with
        | .error e => .error e
        | .ok l => nameDecLoop buf passes (c + 1 + n.toNat) (labels ++ [l])

/-- `nameDec` (42_name.md R103): the name at `off` in dotted form, and the offset just past its
terminator. -/
def nameDec (buf : Bytes) (off : Nat) : Codec (Bytes × Nat) :=
  nameDecLoop buf (buf.length - off + 1) off []

/-- NAME_ENC (42_name.md R102). -/
def execNameEnc (s : State) : Result :=
  withName s fun name => conclude (encoded (nameEnc name)) s

/-- NAME_DEC (42_name.md R104). -/
def execNameDec (s : State) : Result :=
  withBufferAt s fun buf off =>
    conclude ((nameDec buf off).map fun r =>
      { Rsp.blank with name := some r.1, newoff := some r.2 }) s

end Sys2Proof.Machine
end

