-- ==== Sys2Proof/Machine/Question.lean ====
section
/-! DEFINITION. The Question Codec (43_question.md): Q_ENC and Q_DEC. -/

namespace Sys2Proof.Machine

/-- `qEnc` (43_question.md R115). -/
def qEnc (q : Question) : Codec Bytes := do
  let n ← nameEnc q.name
  .ok (n ++ be 2 q.qtype.toNat ++ be 2 q.qclass.toNat)

/-- `qDec` (43_question.md R117): an error in the name comes before the test on the 4 fixed
bytes (R122). -/
def qDec (buf : Bytes) (off : Nat) : Codec (Question × Nat) := do
  let (s, c) ← nameDec buf off
  if c + 4 > buf.length then .error .truncated
  else do
    let t ← memRead 16 buf c
    let k ← memRead 16 buf (c + 2)
    .ok ({ name := s, qtype := t, qclass := k }, c + 4)

/-- Q_ENC (43_question.md R116). -/
def execQEnc (s : State) : Result :=
  withQuestion s fun q => conclude (encoded (qEnc q)) s

/-- Q_DEC (43_question.md R118). -/
def execQDec (s : State) : Result :=
  withBufferAt s fun buf off =>
    conclude ((qDec buf off).map fun r =>
      { Rsp.blank with q := some r.1, newoff := some r.2 }) s

end Sys2Proof.Machine
end

