-- ==== Sys2Proof/Machine/ResourceRecord.lean ====
section
/-! DEFINITION. The Resource Record Codec (44_resource_record.md): RR_ENC and RR_DEC. -/

namespace Sys2Proof.Machine

/-- `rrEnc` (44_resource_record.md R123), with `TYPE_A` as an argument (00_scope.md R6). The
name comes first, then the declared length, then the A-record size (R126). -/
def rrEnc (typeA : U16) (r : ResourceRecord) : Codec Bytes := do
  let n ← nameEnc r.name
  if r.rdlength.toNat ≠ r.rdata.length then .error .invalidRData
  else if r.rtype = typeA ∧ r.rdata.length ≠ Config.aRdLen then .error .invalidRData
  else
    .ok (n ++ be 2 r.rtype.toNat ++ be 2 r.rclass.toNat ++ be 4 r.ttl.toNat ++
      be 2 r.rdlength.toNat ++ r.rdata)

/-- `rrDec` (44_resource_record.md R127): the declared length alone says how many bytes of data
are read (R129). -/
def rrDec (buf : Bytes) (off : Nat) : Codec (ResourceRecord × Nat) := do
  let (s, c) ← nameDec buf off
  if c + 10 > buf.length then .error .truncated
  else do
    let t ← memRead 16 buf c
    let k ← memRead 16 buf (c + 2)
    let tl ← memRead 32 buf (c + 4)
    let rl ← memRead 16 buf (c + 8)
    let d ← readBytes buf (c + 10) rl.toNat
    .ok ({ name := s, rtype := t, rclass := k, ttl := tl, rdlength := rl, rdata := d },
      c + 10 + rl.toNat)

/-- RR_ENC (44_resource_record.md R124) at a block whose A records have type `typeA` (00_scope.md
R6). -/
def execRrEncAt (typeA : U16) (s : State) : Result :=
  withRecord s fun r => conclude (encoded (rrEnc typeA r)) s

/-- RR_ENC at the default `TYPE_A` (00_scope.md R6; log entry 9). -/
def execRrEnc (s : State) : Result := execRrEncAt Config.typeA s

/-- RR_DEC (44_resource_record.md R128). -/
def execRrDec (s : State) : Result :=
  withBufferAt s fun buf off =>
    conclude ((rrDec buf off).map fun r =>
      { Rsp.blank with rr := some r.1, newoff := some r.2 }) s

end Sys2Proof.Machine
end

