-- ==== Sys2Proof/Machine/Message.lean ====
section
/-! DEFINITION. The Message Assembler (45_message.md): MSG_BUILD and MSG_PARSE. -/

namespace Sys2Proof.Machine

/-- The questions of a message, in list order; the first failure ends the operation (45_message.md
R135, R142). -/
def encodeQuestions : List Question → Codec Bytes
  | [] => .ok []
  | q :: qs => do
    let a ← qEnc q
    let rest ← encodeQuestions qs
    .ok (a ++ rest)

/-- The records of a message, in list order; the first failure ends the operation (45_message.md
R135, R142). -/
def encodeRecords (typeA : U16) : List ResourceRecord → Codec Bytes
  | [] => .ok []
  | r :: rs => do
    let a ← rrEnc typeA r
    let rest ← encodeRecords typeA rs
    .ok (a ++ rest)

/-- `msgBuild` (45_message.md R135): header, questions, records. The header's counts are written
as given (R137). -/
def msgBuild (typeA : U16) (h : Header) (qs : List Question) (rs : List ResourceRecord) :
    Codec Bytes := do
  let a ← encodeQuestions qs
  let b ← encodeRecords typeA rs
  .ok (hdrEnc h ++ a ++ b)

/-- The loop of `msgParse` (45_message.md R138): decode `n` questions from cursor `c` on. -/
def parseQuestions (buf : Bytes) : Nat → Nat → Codec (List Question)
  | 0, _ => .ok []
  | n + 1, c => do
    let (q, c') ← qDec buf c
    let rest ← parseQuestions buf n c'
    .ok (q :: rest)

/-- `msgParse` (45_message.md R138): the header, then exactly QDCOUNT questions from offset 12;
nothing past the last question is read (R139). -/
def msgParse (buf : Bytes) : Codec (Header × List Question) :=
  if buf.length < Config.hdrLen then .error .truncated
  else do
    let h ← hdrDec buf
    let qs ← parseQuestions buf h.qdcount.toNat Config.hdrLen
    .ok (h, qs)

/-- MSG_BUILD (45_message.md R136) at a block whose A records have type `typeA` (00_scope.md
R6). -/
def execMsgBuildAt (typeA : U16) (s : State) : Result :=
  withMessage s fun h qs rs => conclude (encoded (msgBuild typeA h qs rs)) s

/-- MSG_BUILD at the default `TYPE_A` (00_scope.md R6; log entry 9). -/
def execMsgBuild (s : State) : Result := execMsgBuildAt Config.typeA s

/-- MSG_PARSE (45_message.md R138). -/
def execMsgParse (s : State) : Result :=
  withBuffer s fun buf =>
    conclude ((msgParse buf).map fun r =>
      { Rsp.blank with h := some r.1, qlist := some r.2 }) s

end Sys2Proof.Machine
end

