-- ==== Sys2Proof/Machine/Reserved.lean ====
section
/-! DEFINITION. The reserved operation codes (60_exceptions.md R162). -/

namespace Sys2Proof.Machine

/-- Codes 0xA and 0xB (60_exceptions.md R162): IllegalOperation before any operand is looked at
(R163). -/
def execReservedAB (_op : U4) (s : State) : Result := .next (raiseError .illegalOperation s)

/-- Codes 0xC to 0xF (60_exceptions.md R162): IllegalOperation before any operand is looked at
(R163). -/
def execReservedCF (_op : U4) (s : State) : Result := .next (raiseError .illegalOperation s)

end Sys2Proof.Machine
end

