-- ==== Sys2Proof/Machine/Dispatch.lean ====
section
/-! DEFINITION. One arm for each operation (30_encoding.md R66). -/

namespace Sys2Proof.Machine

def exec (i : Instr) (s : State) : Host.Outcome State Fault Refusal :=
  match i with
  | .hdrEnc => Sys2Proof.Machine.execHdrEnc s
  | .hdrDec => Sys2Proof.Machine.execHdrDec s
  | .nameEnc => Sys2Proof.Machine.execNameEnc s
  | .nameDec => Sys2Proof.Machine.execNameDec s
  | .qEnc => Sys2Proof.Machine.execQEnc s
  | .qDec => Sys2Proof.Machine.execQDec s
  | .rrEnc => Sys2Proof.Machine.execRrEnc s
  | .rrDec => Sys2Proof.Machine.execRrDec s
  | .msgBuild => Sys2Proof.Machine.execMsgBuild s
  | .msgParse => Sys2Proof.Machine.execMsgParse s
  | .reservedAB op => Sys2Proof.Machine.execReservedAB op s
  | .reservedCF op => Sys2Proof.Machine.execReservedCF op s

end Sys2Proof.Machine
end

