-- ==== Sys2Proof/Machine/Transaction.lean ====
section
/-! DEFINITION. One transaction of a block with given parameters (10_state.md R20, 00_scope.md
R6). -/

namespace Sys2Proof.Machine

/-- The operation of the running transaction: the value of `REQ.OP` when it starts (20_memory.md
R64). -/
def fetch (s : State) : Option Instr := s.req.op.map decodeOp

/-- The outcome of a transaction at a block whose output port has a capacity (45_message.md
R141): an output longer than `OUT_CAP` has no outcome. -/
def boundOutput (p : Ports) (r : Result) : Result :=
  match r with
  | .next t => if outputFits p t.rsp then .next t else .refused .outputExceedsCapacity
  | .fault f => .fault f
  | .refused x => .refused x

/-- An operation at a block whose A records have type `typeA` (00_scope.md R6). Only the two
operations that encode records look at it (44_resource_record.md R134). -/
def execAt (typeA : U16) (i : Instr) (s : State) : Result :=
  match i with
  | .rrEnc => execRrEncAt typeA s
  | .msgBuild => execMsgBuildAt typeA s
  | .hdrEnc | .hdrDec | .nameEnc | .nameDec | .qEnc | .qDec | .rrDec | .msgParse
  | .reservedAB _ | .reservedCF _ => exec i s

/-- One step of the block `b`. A waiting block keeps waiting (70_reset_and_hazards.md R176,
60_exceptions.md R174); a running transaction is performed whole, as one indivisible step
(10_state.md R20; DEDUCED, log entry 4). -/
def stepWithin (b : Block) (s : State) : Result :=
  match s.running with
  | false => .next s
  | true =>
    match fetch s with
    | none => .refused .incompleteRequest
    | some i =>
      if requestFits b.ports s.req then boundOutput b.ports (execAt b.typeA i s)
      else .refused .requestExceedsCapacity

end Sys2Proof.Machine
end

