-- ==== Sys2Proof/Machine/Step.lean ====
section
/-! DEFINITION. The step of the model, at unbounded ports and the default `TYPE_A` (00_scope.md
R6), and the placing of an operation for the next step. -/

namespace Sys2Proof.Machine

/-- One step of the block (10_state.md R20), at the block of `Config.block`. -/
def step (s : State) : Host.Outcome State Fault Refusal := stepWithin Config.block s

/-- `s` with the operation code `w` presented and its transaction started, so that the next step
runs it (10_state.md R41; DESIGN CHOICE, log entry 11). Where a transaction runs in `s` already,
it is replaced and never answers. 70_reset_and_hazards.md R180 leaves open what a change of REQ
then does, and no move of the host makes one (log entry 7): it is the choice of the model (DESIGN
CHOICE, log entry 11). -/
def State.withFetchWord (s : State) (_nbits w : Nat) : State :=
  { s with req := placeOp (opOfWord w) s.req, running := true }

end Sys2Proof.Machine
end

