-- ==== Sys2Proof/Machine/HostPort.lean ====
section
/-! DEFINITION. Everything the host can do to the block (10_state.md R41): write a request field,
start a transaction, read a response field, reset. -/

namespace Sys2Proof.Machine

/-- One host write: a request field and its value (10_state.md R23). -/
inductive HostWrite where
  | op (v : U4)
  | h (v : Header)
  | name (v : Bytes)
  | q (v : Question)
  | rr (v : ResourceRecord)
  | qlist (v : List Question)
  | rrlist (v : List ResourceRecord)
  | ibuf (v : Bytes)
  | off (v : Nat)
  deriving DecidableEq, Repr

/-- REQ after one host write. -/
def writeReq (w : HostWrite) (r : Req) : Req :=
  match w with
  | .op v => { r with op := some v }
  | .h v => { r with h := some v }
  | .name v => { r with name := some v }
  | .q v => { r with q := some v }
  | .rr v => { r with rr := some v }
  | .qlist v => { r with qlist := some v }
  | .rrlist v => { r with rrlist := some v }
  | .ibuf v => { r with ibuf := some v }
  | .off v => { r with off := some v }

/-- A host write of a request field. REQ must stay unchanged while a transaction runs, and the
model gives a host that changes it no move (70_reset_and_hazards.md R180,
93_implementation_defined.md U10). -/
def hostWrite (w : HostWrite) (s : State) : Result :=
  if s.running then .refused .requestChanged else .next { s with req := writeReq w s.req }

/-- The host starts the transaction of a complete request (10_state.md R41). RSP is not written
until the transaction completes (10_state.md R30). -/
def hostStart (s : State) : Result :=
  if s.running then .refused .startWhileRunning
  else if requestComplete s.req then .next { s with running := true }
  else .refused .incompleteRequest

/-- The host writes the whole request record and starts its transaction (10_state.md R20). -/
def present (r : Req) (s : State) : Result :=
  if s.running then .refused .requestChanged else hostStart { s with req := r }

/-- The host resets the block; a running transaction is abandoned and produces no response
(70_reset_and_hazards.md R175, R177). -/
def hostReset (_s : State) : State := State.reset

/-- A host read of a response field whose content is `o` (10_state.md R29,
70_reset_and_hazards.md R175): a fault where it holds no value, and while a transaction runs
(20_memory.md R57; DEDUCED, log entry 6). Reading changes nothing. -/
def readRsp {α : Type} (f : RspField) (o : Option α) (s : State) : Except Fault α :=
  if s.running then .error (.responsePending f)
  else
    match o with
    | some v => .ok v
    | none => .error (.noValue f)

/-- The host reads `RSP.STATUS`. -/
def readStatus (s : State) : Except Fault Status := readRsp .status s.rsp.status s

/-- The host reads `RSP.OBUF`. -/
def readObuf (s : State) : Except Fault Bytes := readRsp .obuf s.rsp.obuf s

/-- The host reads `RSP.H`. -/
def readH (s : State) : Except Fault Header := readRsp .h s.rsp.h s

/-- The host reads `RSP.NAME`. -/
def readName (s : State) : Except Fault Bytes := readRsp .name s.rsp.name s

/-- The host reads `RSP.Q`. -/
def readQ (s : State) : Except Fault Question := readRsp .q s.rsp.q s

/-- The host reads `RSP.RR`. -/
def readRr (s : State) : Except Fault ResourceRecord := readRsp .rr s.rsp.rr s

/-- The host reads `RSP.QLIST`. -/
def readQlist (s : State) : Except Fault (List Question) := readRsp .qlist s.rsp.qlist s

/-- The host reads `RSP.NEWOFF`. -/
def readNewoff (s : State) : Except Fault Nat := readRsp .newoff s.rsp.newoff s

end Sys2Proof.Machine
end

