-- ==== Sys2Proof/Machine/Run.lean ====
section
/-! DEFINITION. Runs of the block: finite sequences of transactions and what is observed of them
(10_state.md R42, 70_reset_and_hazards.md R187). -/

namespace Sys2Proof.Machine

/-- One transaction from start to completion: the host presents `r`, and the block performs
it (10_state.md R20). -/
def transact (r : Req) (s : State) : Result :=
  match present r s with
  | .next t => step t
  | .fault f => .fault f
  | .refused x => .refused x

/-- A run and its observation: the (REQ, RSP) pairs of its transactions, in order (10_state.md
R42). It ends with its last transaction. -/
def runRequests : List Req → State → Host.Outcome (State × List (Req × Rsp)) Fault Refusal
  | [], s => .next (s, [])
  | r :: rs, s =>
    match transact r s with
    | .fault f => .fault f
    | .refused x => .refused x
    | .next t =>
      match runRequests rs t with
      | .fault f => .fault f
      | .refused x => .refused x
      | .next (u, obs) => .next (u, (r, t.rsp) :: obs)

end Sys2Proof.Machine
end

