-- ==== Sys2Proof/Safety.lean ====
section
/-! DEFINITION. What a good state of the block is, and the words the claims are stated in. -/

namespace Sys2Proof.Machine

/-- The result fields of RSP: every field but STATUS (10_state.md R28). -/
def resultFields : List RspField := [.obuf, .h, .name, .q, .rr, .qlist, .newoff]

/-- No result field holds a value (10_state.md R29). -/
def Rsp.noResults (r : Rsp) : Prop := ∀ f ∈ resultFields, rspHolds r f = false

/-- Exactly the result fields in `fs` hold values (10_state.md R29). -/
def Rsp.holdsExactly (r : Rsp) (fs : List RspField) : Prop :=
  ∀ f ∈ resultFields, rspHolds r f = fs.contains f

/-- What a response record is at rest (10_state.md R29, R43, R36, R26): no result without an OK,
on OK exactly the fields some operation writes, as many questions beside a parsed header as it
counts, and a decoded record whose declared length is that of its data. -/
structure Rsp.Consistent (r : Rsp) : Prop where
  blankBeforeFirst : r.status = none → r.noResults
  emptyOnError : ∀ e, r.status = some (.error e) → r.noResults
  exactOnOk : r.status = some .ok → ∃ i : Instr, i.wellFormed ∧ r.holdsExactly (writesOf i)
  countsQuestions : ∀ h qs, r.h = some h → r.qlist = some qs → qs.length = h.qdcount.toNat
  lengthOfData : ∀ x, r.rr = some x → x.rdlength.toNat = x.rdata.length

/-- The invariant of the block: a consistent response, and a running transaction whose request is
complete (10_state.md R41). -/
structure State.Inv (s : State) : Prop where
  response : s.rsp.Consistent
  request : s.running = true → requestComplete s.req = true

/-! ### The wire formats of 30_encoding.md, written from its tables -/

/-- The two bytes of a 16-bit field, big-endian (30_encoding.md R72). -/
def bytes16 (v : U16) : Bytes := [v.extractLsb' 8 8, v.extractLsb' 0 8]

/-- The four bytes of a 32-bit field, big-endian (30_encoding.md R72). -/
def bytes32 (v : U32) : Bytes :=
  [v.extractLsb' 24 8, v.extractLsb' 16 8, v.extractLsb' 8 8, v.extractLsb' 0 8]

/-- A boolean field in a byte: false is 0 and true is 1 (00_scope.md R8). -/
def bitByte (b : Bool) : Byte := if b then 1#8 else 0#8

/-- Byte 2 of a header (30_encoding.md R76):
`(QR << 7) | (OPCODE << 3) | (AA << 2) | (TC << 1) | RD`. -/
def flagByteHigh (h : Header) : Byte :=
  (bitByte h.qr <<< 7) ||| (h.opcode.setWidth 8 <<< 3) ||| (bitByte h.aa <<< 2) |||
    (bitByte h.tc <<< 1) ||| bitByte h.rd

/-- Byte 3 of a header (30_encoding.md R76): `(RA << 7) | (Z << 4) | RCODE`. -/
def flagByteLow (h : Header) : Byte :=
  (bitByte h.ra <<< 7) ||| (h.z.setWidth 8 <<< 4) ||| h.rcode.setWidth 8

/-- The 12 bytes of a header (30_encoding.md R74). -/
def wireHeader (h : Header) : Bytes :=
  bytes16 h.id ++ [flagByteHigh h, flagByteLow h] ++ bytes16 h.qdcount ++ bytes16 h.ancount ++
    bytes16 h.nscount ++ bytes16 h.arcount

/-- The wire form of a list of labels (30_encoding.md R78): each label's length byte and bytes,
in order, without the terminator. -/
def wireLabels (ls : List Bytes) : Bytes := ls.flatMap fun l => BitVec.ofNat 8 l.length :: l

/-- The wire form of a name: its labels, then the zero byte (30_encoding.md R78). -/
def wireName (ls : List Bytes) : Bytes := wireLabels ls ++ [0x00#8]

/-- The labels of a name in dotted form: none for the root, else its pieces (42_name.md R100). -/
def nameLabels (s : Bytes) : List Bytes := if s = [] then [] else split s

/-- Labels a name may be encoded from: each of 1 to 63 bytes (30_encoding.md R78). -/
def labelsOk (ls : List Bytes) : Prop := ∀ l ∈ ls, labelOk l = true

/-- Labels none of which holds the separator byte, the premise of 42_name.md R110 beside
`labelsOk`. -/
def labelsClean (ls : List Bytes) : Prop := ∀ l ∈ ls, labelClean l = true

/-- The wire form of a question whose name has the labels `ls` (30_encoding.md R82). -/
def wireQuestion (ls : List Bytes) (qtype qclass : U16) : Bytes :=
  wireName ls ++ bytes16 qtype ++ bytes16 qclass

/-- The wire form of a resource record whose name has the labels `ls` (30_encoding.md R83). -/
def wireRecord (ls : List Bytes) (r : ResourceRecord) : Bytes :=
  wireName ls ++ bytes16 r.rtype ++ bytes16 r.rclass ++ bytes32 r.ttl ++ bytes16 r.rdlength ++
    r.rdata

/-- A question that Q_ENC accepts (43_question.md R116). -/
def questionOk (q : Question) : Prop := labelsOk (nameLabels q.name)

/-- A record that RR_ENC accepts when A records have type `typeA` (44_resource_record.md R124). -/
def recordOk (typeA : U16) (r : ResourceRecord) : Prop :=
  labelsOk (nameLabels r.name) ∧ r.dataOk typeA = true

/-- The questions section of a message (30_encoding.md R73). -/
def wireQuestions (qs : List Question) : Bytes :=
  qs.flatMap fun q => wireQuestion (nameLabels q.name) q.qtype q.qclass

/-- The records section of a message (30_encoding.md R73). -/
def wireRecords (rs : List ResourceRecord) : Bytes :=
  rs.flatMap fun r => wireRecord (nameLabels r.name) r

/-- One question as it lies in a buffer: its labels, type and class. -/
abbrev RawQuestion := List Bytes × U16 × U16

/-- The questions of a buffer, as bytes (30_encoding.md R82). -/
def wireRaw (xs : List RawQuestion) : Bytes := xs.flatMap fun x => wireQuestion x.1 x.2.1 x.2.2

/-- The Question record a decoder makes of one (43_question.md R117). -/
def RawQuestion.record (x : RawQuestion) : Question :=
  { name := join x.1, qtype := x.2.1, qclass := x.2.2 }

/-- A response that holds exactly STATUS = OK and an output. -/
def okOutput (bs : Bytes) : Rsp := { Rsp.blank with status := some .ok, obuf := some bs }

/-- A response that holds exactly STATUS = `e`. -/
def failed (e : ErrorKind) : Rsp := { Rsp.blank with status := some (.error e) }

/-- The statuses an operation can report (60_exceptions.md R159). -/
def statusesOf : Instr → List Status
  | .hdrEnc => [.ok]
  | .hdrDec => [.ok, .error .truncated]
  | .nameEnc => [.ok, .error .invalidLabel]
  | .nameDec => [.ok, .error .truncated, .error .invalidLabel, .error .unsupportedCompression]
  | .qEnc => [.ok, .error .invalidLabel]
  | .qDec => [.ok, .error .truncated, .error .invalidLabel, .error .unsupportedCompression]
  | .rrEnc => [.ok, .error .invalidLabel, .error .invalidRData]
  | .rrDec => [.ok, .error .truncated, .error .invalidLabel, .error .unsupportedCompression]
  | .msgBuild => [.ok, .error .invalidLabel, .error .invalidRData]
  | .msgParse => [.ok, .error .truncated, .error .invalidLabel, .error .unsupportedCompression]
  | .reservedAB _ => [.error .illegalOperation]
  | .reservedCF _ => [.error .illegalOperation]

/-- Two requests agree on the fields a format reads (10_state.md R23). -/
def agreeOn (fs : List ReqField) (a b : Req) : Prop :=
  (.h ∈ fs → a.h = b.h) ∧ (.name ∈ fs → a.name = b.name) ∧ (.q ∈ fs → a.q = b.q) ∧
  (.rr ∈ fs → a.rr = b.rr) ∧ (.qlist ∈ fs → a.qlist = b.qlist) ∧
  (.rrlist ∈ fs → a.rrlist = b.rrlist) ∧ (.ibuf ∈ fs → a.ibuf = b.ibuf) ∧
  (.off ∈ fs → a.off = b.off)

/-- The fault a value read raises, if it raises one. -/
def faultOf {α : Type} : Except Fault α → Option Fault
  | .ok _ => none
  | .error f => some f

/-- The fault that the host's read of a response field raises, or `none` where it gives a value
(10_state.md R29). -/
def readFault (s : State) : RspField → Option Fault
  | .status => faultOf (readStatus s)
  | .obuf => faultOf (readObuf s)
  | .h => faultOf (readH s)
  | .name => faultOf (readName s)
  | .q => faultOf (readQ s)
  | .rr => faultOf (readRr s)
  | .qlist => faultOf (readQlist s)
  | .newoff => faultOf (readNewoff s)

/-- A length over a capacity that is not unbounded. -/
def exceeds (cap : Option Nat) (n : Nat) : Prop := ∃ c, cap = some c ∧ c < n

/-- Some field of a request is larger than its port (10_state.md R27, 00_scope.md R6). -/
def exceedsPorts (p : Ports) (r : Req) : Prop :=
  (∃ n, r.name = some n ∧ exceeds p.nameCap n.length) ∨
  (∃ q, r.q = some q ∧ exceeds p.nameCap q.name.length) ∨
  (∃ x, r.rr = some x ∧ (exceeds p.nameCap x.name.length ∨ exceeds p.rdataCap x.rdata.length)) ∨
  (∃ qs, r.qlist = some qs ∧
    (exceeds p.qlistCap qs.length ∨ ∃ q ∈ qs, exceeds p.nameCap q.name.length)) ∨
  (∃ xs, r.rrlist = some xs ∧
    (exceeds p.rrlistCap xs.length ∨
      ∃ x ∈ xs, exceeds p.nameCap x.name.length ∨ exceeds p.rdataCap x.rdata.length)) ∨
  (∃ b, r.ibuf = some b ∧ exceeds p.bufCap b.length) ∨
  (∃ off w, r.off = some off ∧ p.cursorW = some w ∧ 2 ^ w ≤ off)

/-- The decoder chain of 70_reset_and_hazards.md R188: Q_DEC at `c`, then at each returned
offset, gives the questions in order and ends at `c'`. -/
def questionChain (buf : Bytes) : Nat → List Question → Nat → Prop
  | c, [], c' => c = c'
  | c, q :: qs, c' => ∃ m, qDec buf c = .ok (q, m) ∧ questionChain buf m qs c'

end Sys2Proof.Machine
end

