-- ==== Sys2Proof/Certificates/Slice0/Obligations.lean ====
section
/-! DEFINITION. The statements about the block, from the numbered rules of spec/.
Each docstring says which rule it formalises; `s.answered r` is the state whose response record
is `r`, whose request record is that of `s`, and whose transaction has completed, so an equation
`exec i s = .next (s.answered r)` says everything the operation does. -/

open Sys2Proof Sys2Proof.Machine

/-! ### Reset, waiting, and the step -/

/-- 70_reset_and_hazards.md R175: after reset no field of RSP or REQ holds a value, and a host read
of a response field that holds none is a fault. A response field that holds none gets a value only
when a transaction completes, and no step and no start gives a value to a request field. -/
def Obligations.ResetHoldsNoValueAndReadsFault : Prop :=
  State.reset.running = false ∧
  (∀ f, reqHolds State.reset.req f = false) ∧
  (∀ f, rspHolds State.reset.rsp f = false) ∧
  (∀ f, readFault State.reset f = some (.noValue f)) ∧
  (∀ s f, rspHolds s.rsp f = false → readFault s f ≠ none) ∧
  (∀ s t, (∃ w, hostWrite w s = .next t) ∨ hostStart s = .next t ∨ (∃ r, present r s = .next t) →
    ∀ f, rspHolds s.rsp f = false → rspHolds t.rsp f = false) ∧
  (∀ s t f, step s = .next t → rspHolds s.rsp f = false → rspHolds t.rsp f = true →
    s.running = true ∧ t.running = false) ∧
  (∀ s t f, step s = .next t ∨ hostStart s = .next t → reqHolds s.req f = false →
    reqHolds t.req f = false)

/-- 70_reset_and_hazards.md R176 "After reset the block waits for its first request", 10_state.md
R21 "The block never starts a transaction of its own": a waiting block stays as it is, whatever
its parameters. That a step of a waiting block is a next state is log entry 4. -/
def Obligations.WaitingBlockStaysAsItIs : Prop :=
  ∀ b s, s.running = false → stepWithin b s = .next s ∧ step s = .next s

/-- 20_memory.md R64: the operation of a transaction is the value of `REQ.OP`; the step of a
running transaction is the meaning of the operation it selects. -/
def Obligations.StepRunsTheSelectedOperation : Prop :=
  ∀ s w, s.running = true → s.req.op = some w → step s = exec (decodeOp w) s

/-- The placing of a table word: the next step runs the operation of that code. How a word is
placed, and that it replaces a transaction that runs already, is the model's choice (log entry
11). -/
def Obligations.PlacedWordRunsNext : Prop :=
  ∀ (s : State) (nbits w : Nat), ∃ i t,
    decodeTableWord nbits w = some i ∧
    step (s.withFetchWord nbits w) = exec i (s.withFetchWord nbits w) ∧
    exec i (s.withFetchWord nbits w) = .next t

/-! ### Operation codes -/

/-- 30_encoding.md R66: the table of operation codes. -/
def Obligations.OperationCodesSelectTheirRows : Prop :=
  decodeOp 0x0 = .hdrEnc ∧ decodeOp 0x1 = .hdrDec ∧ decodeOp 0x2 = .nameEnc ∧
  decodeOp 0x3 = .nameDec ∧ decodeOp 0x4 = .qEnc ∧ decodeOp 0x5 = .qDec ∧
  decodeOp 0x6 = .rrEnc ∧ decodeOp 0x7 = .rrDec ∧ decodeOp 0x8 = .msgBuild ∧
  decodeOp 0x9 = .msgParse ∧ decodeOp 0xA = .reservedAB 0xA ∧ decodeOp 0xB = .reservedAB 0xB ∧
  decodeOp 0xC = .reservedCF 0xC ∧ decodeOp 0xD = .reservedCF 0xD ∧
  decodeOp 0xE = .reservedCF 0xE ∧ decodeOp 0xF = .reservedCF 0xF

/-- Decoding the code of a well-formed operation gives it back, and every code is the code of the
well-formed operation it selects (30_encoding.md R66: exactly one row for every value). -/
def Obligations.OperationCodesRoundTrip : Prop :=
  (∀ i : Instr, i.wellFormed = true → decodeOp (encode i) = i) ∧
  (∀ w : U4, (decodeOp w).wellFormed = true ∧ encode (decodeOp w) = w)

/-- 60_exceptions.md R156: the status codes, one for each of the six statuses, and codes 6 to 15
never. -/
def Obligations.StatusCodesAreTheTable : Prop :=
  Status.code .ok = 0x0#4 ∧ Status.code (.error .truncated) = 0x1#4 ∧
  Status.code (.error .invalidLabel) = 0x2#4 ∧ Status.code (.error .invalidRData) = 0x3#4 ∧
  Status.code (.error .unsupportedCompression) = 0x4#4 ∧
  Status.code (.error .illegalOperation) = 0x5#4 ∧
  (∀ a b, Status.code a = Status.code b → a = b) ∧ (∀ a, (Status.code a).toNat < 6)

/-! ### Access primitives -/

/-- 20_memory.md R50: `MemRead` is big-endian, bounded by one test, and reads nothing else. -/
def Obligations.MemReadIsBigEndianOrTruncated : Prop :=
  (∀ buf off, buf.length < off + 1 → memRead 8 buf off = .error .truncated) ∧
  (∀ buf off, buf.length < off + 2 → memRead 16 buf off = .error .truncated) ∧
  (∀ buf off, buf.length < off + 4 → memRead 32 buf off = .error .truncated) ∧
  (∀ (p t : Bytes) (a : Byte), memRead 8 (p ++ [a] ++ t) p.length = .ok a) ∧
  (∀ (p t : Bytes) (a b : Byte), memRead 16 (p ++ [a, b] ++ t) p.length = .ok (a ++ b)) ∧
  (∀ (p t : Bytes) (a b c d : Byte),
    memRead 32 (p ++ [a, b, c, d] ++ t) p.length = .ok (a ++ b ++ c ++ d))

/-- 20_memory.md R51: `ReadBytes` gives exactly the bytes asked for, or Truncated. -/
def Obligations.ReadBytesIsTheSliceOrTruncated : Prop :=
  (∀ buf off n, buf.length < off + n → readBytes buf off n = .error .truncated) ∧
  (∀ p d t : Bytes, readBytes (p ++ d ++ t) p.length d.length = .ok d)

/-- 20_memory.md R53: `MemWrite` writes the big-endian bytes of the value at its address, and
`BE(2, v)` and `BE(4, v)` are those bytes; every byte outside the stored ones keeps its value. -/
def Obligations.MemWriteStoresBigEndianBytes : Prop :=
  (∀ out addr n v, addr ≤ out.length →
    (∀ i, i < n →
      (memWrite out addr n v)[addr + i]? =
        some (BitVec.ofNat 8 ((v >>> (8 * (n - 1 - i))) &&& 0xFF))) ∧
    (∀ a, a < addr → (memWrite out addr n v)[a]? = out[a]?) ∧
    (∀ a, addr + n ≤ a → (memWrite out addr n v)[a]? = out[a]?) ∧
    ((memWrite out addr n v).drop addr).take n = be n v) ∧
  (∀ v, be 2 v = [BitVec.ofNat 8 ((v >>> 8) &&& 0xFF), BitVec.ofNat 8 (v &&& 0xFF)]) ∧
  (∀ v, be 4 v = [BitVec.ofNat 8 ((v >>> 24) &&& 0xFF), BitVec.ofNat 8 ((v >>> 16) &&& 0xFF),
    BitVec.ofNat 8 ((v >>> 8) &&& 0xFF), BitVec.ofNat 8 (v &&& 0xFF)])

/-- 20_memory.md R54, R48: the append primitives write at `olen` and nowhere else. -/
def Obligations.EmitAppendsOnly : Prop :=
  (∀ out n v, emit out n v = out ++ be n v ∧ (emit out n v).length = out.length + n) ∧
  (∀ out s, emitBytes out s = out ++ s) ∧
  (∀ out s a, a < out.length → (emitBytes out s)[a]? = out[a]?)

/-! ### Header -/

/-- 41_header.md R90, at the operation: HDR_ENC of any header succeeds, and its output is the 12
bytes with every field at its place. -/
def Obligations.HdrEncWritesTheWireHeader : Prop :=
  ∀ s h, s.req.h = some h →
    exec .hdrEnc s = .next (s.answered (okOutput (wireHeader h))) ∧ (wireHeader h).length = 12

/-- 41_header.md R92, at the operation: HDR_DEC of 12 bytes or more takes each field from its
bits, whatever follows; of fewer it reports Truncated. -/
def Obligations.HdrDecReadsEachFieldFromItsBits : Prop :=
  (∀ s (b0 b1 b2 b3 b4 b5 b6 b7 b8 b9 b10 b11 : Byte) (t : Bytes),
    s.req.ibuf = some ([b0, b1, b2, b3, b4, b5, b6, b7, b8, b9, b10, b11] ++ t) →
    exec .hdrDec s = .next (s.answered { Rsp.blank with
      status := some .ok
      h := some
        { id := b0 ++ b1
          qr := b2.getLsbD 7
          opcode := b2.extractLsb' 3 4
          aa := b2.getLsbD 2
          tc := b2.getLsbD 1
          rd := b2.getLsbD 0
          ra := b3.getLsbD 7
          z := b3.extractLsb' 4 3
          rcode := b3.extractLsb' 0 4
          qdcount := b4 ++ b5
          ancount := b6 ++ b7
          nscount := b8 ++ b9
          arcount := b10 ++ b11 } })) ∧
  (∀ s buf, s.req.ibuf = some buf → buf.length < 12 →
    exec .hdrDec s = .next (s.answered (failed .truncated)))

/-- 41_header.md section 3, the sentence "for every Header record `h`, `hdrDec(hdrEnc(h)) = h`",
for every header and whatever follows its bytes. -/
def Obligations.HeaderSurvivesEncodeThenDecode : Prop :=
  ∀ s s' h t, s.req.h = some h → s'.req.ibuf = some (hdrEnc h ++ t) →
    exec .hdrEnc s = .next (s.answered (okOutput (hdrEnc h))) ∧
    exec .hdrDec s' =
      .next (s'.answered { Rsp.blank with status := some .ok, h := some h })

/-- 41_header.md section 3, the sentence "for every byte sequence `b` with `len(b) ≥ 12`,
`hdrEnc(hdrDec(b)) = b[0..12)`". -/
def Obligations.HeaderBytesSurviveDecodeThenEncode : Prop :=
  ∀ s b, s.req.ibuf = some b → 12 ≤ b.length →
    ∃ h, exec .hdrDec s =
        .next (s.answered { Rsp.blank with status := some .ok, h := some h }) ∧
      ∀ s', s'.req.h = some h →
        exec .hdrEnc s' = .next (s'.answered (okOutput (b.take 12)))

/-! ### Names -/

/-- 42_name.md R100: `split` and `join`. -/
def Obligations.SplitAndJoinAreInverse : Prop :=
  (∀ ls, ls ≠ [] → labelsClean ls → split (join ls) = ls) ∧
  (∀ s, join (split s) = s) ∧
  (∀ s, labelsClean (split s)) ∧
  (∀ s, (split s).length = s.count Config.sep + 1) ∧
  join [] = [] ∧ (∀ l, join [l] = l) ∧
  (∀ l ls, ls ≠ [] → join (l :: ls) = l ++ Config.sep :: join ls)

/-- 42_name.md R101, at the operation: the root gives one zero byte, a name whose labels are all
of 1 to 63 bytes gives their wire form, and any other name reports InvalidLabel. -/
def Obligations.NameEncWritesLabelsOrInvalidLabel : Prop :=
  ∀ s name, s.req.name = some name →
    (name = [] → exec .nameEnc s = .next (s.answered (okOutput [0x00#8]))) ∧
    (name ≠ [] → labelsOk (split name) →
      exec .nameEnc s = .next (s.answered (okOutput (wireName (split name))))) ∧
    (name ≠ [] → ¬ labelsOk (split name) →
      exec .nameEnc s = .next (s.answered (failed .invalidLabel)))

/-- 42_name.md R103 and R106, at the operation: at the start of any wire form NAME_DEC gives its
labels joined and the offset just past the terminator, whatever stands before and after. Else,
after any number of whole labels, the next length byte is checked for its position, then its
class, then its label's bytes, and the error met first in buffer order is reported. -/
def Obligations.NameDecDecodesOrReportsTheFirstError : Prop :=
  (∀ s p ls t, labelsOk ls → s.req.ibuf = some (p ++ wireName ls ++ t) →
    s.req.off = some p.length →
    exec .nameDec s = .next (s.answered { Rsp.blank with
      status := some .ok
      name := some (join ls)
      newoff := some (p.length + (wireName ls).length) })) ∧
  (∀ s p ls rest, labelsOk ls → s.req.ibuf = some (p ++ wireLabels ls ++ rest) →
    s.req.off = some p.length →
    (rest = [] → exec .nameDec s = .next (s.answered (failed .truncated))) ∧
    (∀ (n : Byte) r, rest = n :: r →
      (0xC0 ≤ n.toNat →
        exec .nameDec s = .next (s.answered (failed .unsupportedCompression))) ∧
      (0x40 ≤ n.toNat → n.toNat < 0xC0 →
        exec .nameDec s = .next (s.answered (failed .invalidLabel))) ∧
      (1 ≤ n.toNat → n.toNat < 0x40 → r.length < n.toNat →
        exec .nameDec s = .next (s.answered (failed .truncated)))))

/-- 42_name.md R104: an offset at or past the end of the buffer is accepted and reports
Truncated, in each of the three decoders that take one (10_state.md R40). -/
def Obligations.OffsetPastTheEndIsTruncated : Prop :=
  ∀ s buf off, s.req.ibuf = some buf → s.req.off = some off → buf.length ≤ off →
    exec .nameDec s = .next (s.answered (failed .truncated)) ∧
    exec .qDec s = .next (s.answered (failed .truncated)) ∧
    exec .rrDec s = .next (s.answered (failed .truncated))

/-- 42_name.md section 4, the round trip of a name: its encoding decodes, at any place in a
buffer, to the name and the offset past it. -/
def Obligations.NameSurvivesEncodeThenDecode : Prop :=
  ∀ ls, labelsOk ls → labelsClean ls →
    ∃ b, (∀ s, s.req.name = some (join ls) →
        exec .nameEnc s = .next (s.answered (okOutput b))) ∧
      ∀ s p t, s.req.ibuf = some (p ++ b ++ t) → s.req.off = some p.length →
        exec .nameDec s = .next (s.answered { Rsp.blank with
          status := some .ok, name := some (join ls), newoff := some (p.length + b.length) })

/-- 42_name.md sections 3 and 4, the sentences of R107, R109 and R111: a name that decodes is the
join of the labels whose wire form it spans, which ends in a zero byte; it encodes back to those
bytes exactly when no label holds the separator. -/
def Obligations.DecodedNameSpansItsWireForm : Prop :=
  ∀ buf off s off', nameDec buf off = .ok (s, off') →
    off < off' ∧ off' ≤ buf.length ∧ buf[off' - 1]? = some 0x00#8 ∧
    ∃ ls, labelsOk ls ∧ s = join ls ∧ (buf.drop off).take (off' - off) = wireName ls ∧
      (labelsClean ls → nameEnc s = .ok (wireName ls)) ∧
      (¬ labelsClean ls → nameEnc s ≠ .ok (wireName ls))

/-- 42_name.md section 4, the sentence of R113: the encoded length of every name that NAME_ENC
accepts. -/
def Obligations.EncodedNameLength : Prop :=
  ∀ s t name b, s.req.name = some name → exec .nameEnc s = .next t → t.rsp.obuf = some b →
    (name = [] → b.length = 1) ∧ (name ≠ [] → b.length = name.length + 2)

/-! ### Questions -/

/-- 43_question.md R115, at the operation: the name's wire form, QTYPE, QCLASS; InvalidLabel
exactly when the name fails. -/
def Obligations.QEncWritesTheWireQuestion : Prop :=
  ∀ s q, s.req.q = some q →
    (questionOk q → exec .qEnc s = .next (s.answered
      (okOutput (wireQuestion (nameLabels q.name) q.qtype q.qclass)))) ∧
    (¬ questionOk q → exec .qEnc s = .next (s.answered (failed .invalidLabel)))

/-- 43_question.md R117, at the operation: a name and 4 bytes decode, whatever stands before and
after; an error of the name comes first; fewer than 4 bytes after the name report Truncated. -/
def Obligations.QDecReadsNameThenFourBytes : Prop :=
  (∀ s p ls (qt qc : U16) t, labelsOk ls →
    s.req.ibuf = some (p ++ wireQuestion ls qt qc ++ t) → s.req.off = some p.length →
    exec .qDec s = .next (s.answered { Rsp.blank with
      status := some .ok
      q := some { name := join ls, qtype := qt, qclass := qc }
      newoff := some (p.length + (wireQuestion ls qt qc).length) })) ∧
  (∀ s buf off e, s.req.ibuf = some buf → s.req.off = some off → nameDec buf off = .error e →
    exec .qDec s = .next (s.answered (failed e))) ∧
  (∀ s p ls t, labelsOk ls → t.length < 4 →
    s.req.ibuf = some (p ++ wireName ls ++ t) → s.req.off = some p.length →
    exec .qDec s = .next (s.answered (failed .truncated)))

/-- 43_question.md section 3, the round trip of a question. -/
def Obligations.QuestionSurvivesEncodeThenDecode : Prop :=
  ∀ ls (qt qc : U16), labelsOk ls → labelsClean ls →
    ∃ b, (∀ s, s.req.q = some { name := join ls, qtype := qt, qclass := qc } →
        exec .qEnc s = .next (s.answered (okOutput b))) ∧
      ∀ s p t, s.req.ibuf = some (p ++ b ++ t) → s.req.off = some p.length →
        exec .qDec s = .next (s.answered { Rsp.blank with
          status := some .ok
          q := some { name := join ls, qtype := qt, qclass := qc }
          newoff := some (p.length + b.length) })

/-! ### Resource records -/

/-- 44_resource_record.md R123 with R125 and R126, at the operation: the name first, then the
data checks, then the record's wire form. The code of an A record is `Config.typeA` (log entry
9). -/
def Obligations.RrEncChecksThenWritesTheWireRecord : Prop :=
  ∀ s r, s.req.rr = some r →
    (¬ labelsOk (nameLabels r.name) →
      exec .rrEnc s = .next (s.answered (failed .invalidLabel))) ∧
    (labelsOk (nameLabels r.name) → r.rdlength.toNat ≠ r.rdata.length →
      exec .rrEnc s = .next (s.answered (failed .invalidRData))) ∧
    (labelsOk (nameLabels r.name) → r.rtype = Config.typeA → r.rdata.length ≠ 4 →
      exec .rrEnc s = .next (s.answered (failed .invalidRData))) ∧
    (labelsOk (nameLabels r.name) → r.rdlength.toNat = r.rdata.length →
      (r.rtype = Config.typeA → r.rdata.length = 4) →
      exec .rrEnc s = .next (s.answered (okOutput (wireRecord (nameLabels r.name) r))))

/-- 44_resource_record.md R123 for every choice of `TYPE_A` (00_scope.md R6): a record is accepted
exactly when its name and data are, and never with another output. -/
def Obligations.RecordAcceptedForAnyTypeCode : Prop :=
  ∀ typeA r,
    (recordOk typeA r → rrEnc typeA r = .ok (wireRecord (nameLabels r.name) r)) ∧
    (¬ recordOk typeA r → rrEnc typeA r = .error .invalidLabel ∨
      rrEnc typeA r = .error .invalidRData) ∧
    (rrEnc typeA r = .error .invalidLabel ↔ ¬ labelsOk (nameLabels r.name))

/-- 44_resource_record.md R127, at the operation: a name, 10 fixed bytes and RDLENGTH bytes
decode, whatever the TYPE (R129) and whatever stands before and after; an error of the name comes
first, then the fixed bytes, then the data. -/
def Obligations.RrDecReadsNameFixedBytesThenData : Prop :=
  (∀ s p ls r t, labelsOk ls → r.name = join ls → r.rdata.length = r.rdlength.toNat →
    s.req.ibuf = some (p ++ wireRecord ls r ++ t) → s.req.off = some p.length →
    exec .rrDec s = .next (s.answered { Rsp.blank with
      status := some .ok
      rr := some r
      newoff := some (p.length + (wireRecord ls r).length) })) ∧
  (∀ s buf off e, s.req.ibuf = some buf → s.req.off = some off → nameDec buf off = .error e →
    exec .rrDec s = .next (s.answered (failed e))) ∧
  (∀ s p ls t, labelsOk ls → t.length < 10 →
    s.req.ibuf = some (p ++ wireName ls ++ t) → s.req.off = some p.length →
    exec .rrDec s = .next (s.answered (failed .truncated))) ∧
  (∀ s p ls r, labelsOk ls → r.rdata.length < r.rdlength.toNat →
    s.req.ibuf = some (p ++ wireRecord ls r) → s.req.off = some p.length →
    exec .rrDec s = .next (s.answered (failed .truncated)))

/-- 44_resource_record.md section 3, the round trip of a record that RR_ENC accepts. -/
def Obligations.RecordSurvivesEncodeThenDecode : Prop :=
  ∀ ls r, labelsOk ls → labelsClean ls → r.name = join ls → r.dataOk Config.typeA = true →
    ∃ b, (∀ s, s.req.rr = some r → exec .rrEnc s = .next (s.answered (okOutput b))) ∧
      ∀ s p t, s.req.ibuf = some (p ++ b ++ t) → s.req.off = some p.length →
        exec .rrDec s = .next (s.answered { Rsp.blank with
          status := some .ok, rr := some r, newoff := some (p.length + b.length) })

/-! ### Messages -/

/-- 45_message.md R135, at the operation: header, questions, records, with the header's counts as
given (R137); if any of them fails to encode, the operation fails with its error. The code of an
A record is `Config.typeA` (log entry 9). -/
def Obligations.MsgBuildConcatenatesWireForms : Prop :=
  ∀ s h qs rs, s.req.h = some h → s.req.qlist = some qs → s.req.rrlist = some rs →
    ((∀ q ∈ qs, questionOk q) → (∀ r ∈ rs, recordOk Config.typeA r) →
      exec .msgBuild s = .next (s.answered
        (okOutput (wireHeader h ++ wireQuestions qs ++ wireRecords rs)))) ∧
    ((∃ q ∈ qs, ¬ questionOk q) ∨ (∃ r ∈ rs, ¬ recordOk Config.typeA r) →
      exec .msgBuild s = .next (s.answered (failed .invalidLabel)) ∨
      exec .msgBuild s = .next (s.answered (failed .invalidRData)))

/-- 45_message.md R142: the status of a failing MSG_BUILD is that of the first element, questions
before records, whose encoder fails, and no byte of the message is presented. -/
def Obligations.MsgBuildReportsTheFirstFailure : Prop :=
  ∀ s h qs rs, s.req.h = some h → s.req.qlist = some qs → s.req.rrlist = some rs →
    (∀ a q b, qs = a ++ q :: b → (∀ x ∈ a, questionOk x) → ¬ questionOk q →
      exec .msgBuild s = .next (s.answered (failed .invalidLabel))) ∧
    (∀ a r b, rs = a ++ r :: b → (∀ q ∈ qs, questionOk q) →
      (∀ x ∈ a, recordOk Config.typeA x) →
      (¬ labelsOk (nameLabels r.name) →
        exec .msgBuild s = .next (s.answered (failed .invalidLabel))) ∧
      (labelsOk (nameLabels r.name) → r.dataOk Config.typeA = false →
        exec .msgBuild s = .next (s.answered (failed .invalidRData))))

/-- 45_message.md R138, at the operation: the header and exactly QDCOUNT questions from offset 12
on, whatever follows them (R139). A buffer shorter than a header reports Truncated; else the first
question that fails to decode, in order, gives its error, and the header is not returned. -/
def Obligations.MsgParseReadsItsQuestionsOrReportsTheFirstFailure : Prop :=
  (∀ s h (xs : List RawQuestion) t, (∀ x ∈ xs, labelsOk x.1) → xs.length = h.qdcount.toNat →
    s.req.ibuf = some (wireHeader h ++ wireRaw xs ++ t) →
    exec .msgParse s = .next (s.answered { Rsp.blank with
      status := some .ok, h := some h, qlist := some (xs.map RawQuestion.record) })) ∧
  (∀ s buf, s.req.ibuf = some buf → buf.length < 12 →
    exec .msgParse s = .next (s.answered (failed .truncated))) ∧
  (∀ s h (xs : List RawQuestion) t e, (∀ x ∈ xs, labelsOk x.1) → xs.length < h.qdcount.toNat →
    s.req.ibuf = some (wireHeader h ++ wireRaw xs ++ t) →
    qDec (wireHeader h ++ wireRaw xs ++ t) (12 + (wireRaw xs).length) = .error e →
    exec .msgParse s = .next (s.answered (failed e)))

/-- 45_message.md section 3, the round trip of a message: parsing a built message, whatever
follows it, gives its header and questions back when QDCOUNT is their number. -/
def Obligations.ParseInvertsBuild : Prop :=
  ∀ s s' h qs rs t b, h.qdcount.toNat = qs.length →
    (∀ q ∈ qs, ∃ ls, labelsOk ls ∧ labelsClean ls ∧ q.name = join ls) →
    s.req.h = some h → s.req.qlist = some qs → s.req.rrlist = some rs →
    exec .msgBuild s = .next (s.answered (okOutput b)) →
    s'.req.ibuf = some (b ++ t) →
    exec .msgParse s' = .next (s'.answered { Rsp.blank with
      status := some .ok, h := some h, qlist := some qs })

/-- 45_message.md section 3, the length of a built message. -/
def Obligations.BuiltMessageLength : Prop :=
  ∀ s h qs rs b, s.req.h = some h → s.req.qlist = some qs → s.req.rrlist = some rs →
    exec .msgBuild s = .next (s.answered (okOutput b)) →
    b.length = 12 + (qs.map fun q => (wireName (nameLabels q.name)).length + 4).sum +
      (rs.map fun r => (wireName (nameLabels r.name)).length + 10 + r.rdlength.toNat).sum

/-- 70_reset_and_hazards.md R188: HDR_DEC and a chain of Q_DEC from offset 12, QDCOUNT times, give
the same header and questions as one MSG_PARSE of the same buffer. -/
def Obligations.DecoderChainAgreesWithParse : Prop :=
  ∀ s buf h qs, s.req.ibuf = some buf →
    (exec .msgParse s = .next (s.answered { Rsp.blank with
        status := some .ok, h := some h, qlist := some qs }) ↔
      exec .hdrDec s = .next (s.answered { Rsp.blank with status := some .ok, h := some h }) ∧
      qs.length = h.qdcount.toNat ∧ ∃ c, questionChain buf 12 qs c)

/-- 41_header.md R98, 45_message.md R139 and the corner cases of R104, R118 and R128: a decoder
that succeeds reads nothing past what it decodes, so bytes appended to its buffer change
nothing. -/
def Obligations.DecodersIgnoreTrailingBytes : Prop :=
  ∀ i, i = .hdrDec ∨ i = .nameDec ∨ i = .qDec ∨ i = .rrDec ∨ i = .msgParse →
    ∀ s s' buf t u, s.req.ibuf = some buf → s'.req.ibuf = some (buf ++ t) →
      s'.req.off = s.req.off → exec i s = .next u → u.rsp.status = some .ok →
      ∃ u', exec i s' = .next u' ∧ u'.rsp = u.rsp

/-! ### Reserved codes -/

/-- 60_exceptions.md R162: a reserved code reads no operand and reports IllegalOperation with no
result, as an operation and as a step. -/
def Obligations.ReservedCodesReportIllegalOperation : Prop :=
  (∀ op s, exec (.reservedAB op) s = .next (s.answered (failed .illegalOperation))) ∧
  (∀ op s, exec (.reservedCF op) s = .next (s.answered (failed .illegalOperation))) ∧
  (∀ s w, s.running = true → s.req.op = some w → 0xA ≤ w.toNat →
    step s = .next (s.answered (failed .illegalOperation)))

/-! ### The whole machine -/

/-- 60_exceptions.md R157 "Nothing else changes" and 10_state.md R23 "the block never writes
them": whatever the operation, no request field and no byte of the input buffer changes, and the
transaction is over. -/
def Obligations.NoOperationWritesTheRequest : Prop :=
  ∀ i s t, exec i s = .next t →
    t.req = s.req ∧ t.running = false ∧
    ∀ buf buf' a, s.req.ibuf = some buf → t.req.ibuf = some buf' →
      memRead 8 buf' a = memRead 8 buf a

/-- 10_state.md R29 with 30_encoding.md R67: after a transaction STATUS holds a value; on OK
exactly the fields the operation writes hold values, on an error no result field does. -/
def Obligations.ResultFieldsFollowTheStatus : Prop :=
  ∀ i s t, exec i s = .next t →
    (t.rsp.status = some .ok ∧ t.rsp.holdsExactly (writesOf i)) ∨
    (∃ e, t.rsp = failed e)

/-- 60_exceptions.md R159, the table: an operation reports only the statuses of its row, and
reports each of them for some request. -/
def Obligations.StatusTableIsExact : Prop :=
  (∀ i s t, exec i s = .next t → ∃ st ∈ statusesOf i, t.rsp.status = some st) ∧
  (∀ i, ∀ st ∈ statusesOf i, ∃ s t, exec i s = .next t ∧ t.rsp.status = some st)

/-- 10_state.md R23 with 30_encoding.md R67, and R20 "No value is carried from one transaction to
the next": the response is a function of the fields the operation reads, whatever the other
request fields and the previous response hold. -/
def Obligations.ResponseDependsOnItsOperandsOnly : Prop :=
  ∀ i s s' t, agreeOn (readsOf (formatOf i)) s.req s'.req → exec i s = .next t →
    ∃ t', exec i s' = .next t' ∧ t'.rsp = t.rsp

/-- 70_reset_and_hazards.md R186: every transaction of a complete request completes in one step
and gives a status. That one step is one transaction is log entry 4; that a physical block
completes too is the assumption of log entry 16. -/
def Obligations.CompleteRequestCompletes : Prop :=
  ∀ s, s.running = true → requestComplete s.req = true →
    ∃ t st, step s = .next t ∧ t.running = false ∧ t.rsp.status = some st

/-- The step never faults, and refuses only a transaction whose request lacks a field its
operation reads, which 10_state.md R41 lets no host start (log entry 5). -/
def Obligations.StepStopsOnlyOnIncompleteRequests : Prop :=
  ∀ s, (∀ f, step s ≠ .fault f) ∧
    (∀ x, step s = .refused x →
      x = .incompleteRequest ∧ s.running = true ∧ requestComplete s.req = false)

/-- The invariant `State.Inv` (10_state.md R29, R36, R41) holds after reset. -/
def Obligations.ResetMeetsTheInvariant : Prop := State.reset.Inv

/-- Every step keeps `State.Inv`: a consistent response record (10_state.md R29, with R36's count
of questions and R26's length of data) and a complete running request (R41). -/
def Obligations.StepKeepsTheInvariant : Prop :=
  ∀ s t, s.Inv → step s = .next t → t.Inv

/-- Every move of the host keeps `State.Inv` (10_state.md R41). -/
def Obligations.HostMovesKeepTheInvariant : Prop :=
  ∀ s, s.Inv →
    (∀ w t, hostWrite w s = .next t → t.Inv) ∧ (∀ t, hostStart s = .next t → t.Inv) ∧
    (∀ r t, present r s = .next t → t.Inv) ∧ (hostReset s).Inv

/-! ### The host interface and runs -/

/-- 70_reset_and_hazards.md R177 and R180 with 93_implementation_defined.md U10: while a
transaction runs the host can only reset, which abandons it. That reads are faults and a second
start is refused is the model's choice (log entries 6 and 7). -/
def Obligations.RunningTransactionAdmitsOnlyReset : Prop :=
  ∀ s, s.running = true →
    (∀ w, hostWrite w s = .refused .requestChanged) ∧
    (∀ r, present r s = .refused .requestChanged) ∧
    hostStart s = .refused .startWhileRunning ∧
    (∀ f, readFault s f = some (.responsePending f)) ∧
    hostReset s = State.reset

/-- 10_state.md R29 and 70_reset_and_hazards.md R181, as the host sees them: after a transaction,
STATUS can be read; a result field can be read exactly when the status is OK and the operation
writes it, whatever an earlier transaction left there. -/
def Obligations.HostReadsExactlyTheWrittenFields : Prop :=
  ∀ r s t w, r.op = some w → transact r s = .next t →
    readFault t .status = none ∧
    ∀ f ∈ resultFields, readFault t f =
      if t.rsp.status = some .ok ∧ f ∈ writesOf (decodeOp w) then none else some (.noValue f)

/-- 10_state.md R42: a run of complete requests completes, its observation is one pair for each
request in order, and each response is the one its request gets right after reset. That it
completes rests on log entry 4 (one step is one transaction) and, for a physical block, on the
assumption of log entry 16. -/
def Obligations.RunIsTheSequenceOfItsTransactions : Prop :=
  ∀ rs s, s.running = false → (∀ r ∈ rs, requestComplete r = true) →
    ∃ u obs, runRequests rs s = .next (u, obs) ∧ u.running = false ∧ obs.map Prod.fst = rs ∧
      ∀ x ∈ obs, ∃ t, transact x.1 State.reset = .next t ∧ t.rsp = x.2

/-! ### Port capacities -/

/-- 10_state.md R27 and 45_message.md R141: at a block with capacities, a request larger than a
port has no transaction, an output longer than `OUT_CAP` has no outcome, and every other
transaction is the one of the unbounded model. -/
def Obligations.CapacitiesRefuseAndChangeNothingElse : Prop :=
  ∀ b s i, s.running = true → fetch s = some i →
    (exceedsPorts b.ports s.req → stepWithin b s = .refused .requestExceedsCapacity) ∧
    (¬ exceedsPorts b.ports s.req → ∀ t, execAt b.typeA i s = .next t →
      ((∃ o, t.rsp.obuf = some o ∧ exceeds b.ports.outCap o.length) →
        stepWithin b s = .refused .outputExceedsCapacity) ∧
      ((∀ o, t.rsp.obuf = some o → ¬ exceeds b.ports.outCap o.length) →
        stepWithin b s = .next t))

/-- 10_state.md R40: a cursor wide enough for every offset of the buffer is wide enough for every
offset a decoder returns. -/
def Obligations.ReturnedOffsetsFitTheCursor : Prop :=
  ∀ b s t n, b.ports.admissible = true → s.running = true → stepWithin b s = .next t →
    t.rsp.newoff = some n → cursorFits b.ports.cursorW n = true

/-! ### The parameter TYPE_A -/

/-- 00_scope.md R6 with 44_resource_record.md R134: at a block with any `TYPE_A`, a step is the
operation at that `TYPE_A`; RR_ENC and MSG_BUILD check records against it, and no other operation
looks at it. At the default `TYPE_A` (log entry 9) it is `exec`. -/
def Obligations.RecordsAreCheckedAtTheTypeCodeOfTheBlock : Prop :=
  (∀ b s w, b.ports = Ports.unbounded → s.running = true → s.req.op = some w →
    stepWithin b s = execAt b.typeA (decodeOp w) s) ∧
  (∀ typeA s r, s.req.rr = some r →
    (¬ labelsOk (nameLabels r.name) →
      execAt typeA .rrEnc s = .next (s.answered (failed .invalidLabel))) ∧
    (labelsOk (nameLabels r.name) → r.dataOk typeA = false →
      execAt typeA .rrEnc s = .next (s.answered (failed .invalidRData))) ∧
    (recordOk typeA r → execAt typeA .rrEnc s =
      .next (s.answered (okOutput (wireRecord (nameLabels r.name) r))))) ∧
  (∀ typeA s h qs rs, s.req.h = some h → s.req.qlist = some qs → s.req.rrlist = some rs →
    ((∃ q ∈ qs, ¬ questionOk q) →
      execAt typeA .msgBuild s = .next (s.answered (failed .invalidLabel))) ∧
    ((∀ q ∈ qs, questionOk q) →
      (∀ a r c, rs = a ++ r :: c → (∀ x ∈ a, recordOk typeA x) →
        (¬ labelsOk (nameLabels r.name) →
          execAt typeA .msgBuild s = .next (s.answered (failed .invalidLabel))) ∧
        (labelsOk (nameLabels r.name) → r.dataOk typeA = false →
          execAt typeA .msgBuild s = .next (s.answered (failed .invalidRData)))) ∧
      ((∀ r ∈ rs, recordOk typeA r) → execAt typeA .msgBuild s = .next (s.answered
        (okOutput (wireHeader h ++ wireQuestions qs ++ wireRecords rs)))))) ∧
  (∀ typeA i s, i ≠ .rrEnc → i ≠ .msgBuild → execAt typeA i s = exec i s) ∧
  (∀ i s, execAt Config.typeA i s = exec i s)

/-- Every step keeps `State.Inv` at a block with any capacities and any `TYPE_A` (00_scope.md
R6). -/
def Obligations.EveryBlockKeepsTheInvariant : Prop :=
  ∀ b s t, s.Inv → stepWithin b s = .next t → t.Inv

/-! ### The host's moves -/

/-- 10_state.md R41: what the host's moves do to a waiting block, and that they do nothing else.
That a start leaves an older response as it stands is log entry 17, and the refusal of an
incomplete request log entry 5. -/
def Obligations.HostMovesWriteOnlyTheRequest : Prop :=
  ∀ s, s.running = false →
    (∀ w, hostWrite w s = .next { s with req := writeReq w s.req }) ∧
    (requestComplete s.req = true → hostStart s = .next { s with running := true }) ∧
    (requestComplete s.req = false → hostStart s = .refused .incompleteRequest) ∧
    (∀ r, requestComplete r = true →
      present r s = .next { s with req := r, running := true }) ∧
    (∀ r, requestComplete r = false → present r s = .refused .incompleteRequest)
end

