-- ==== Sys2Proof/Laws/State.lean ====
section
/-! SUPPORT. One lemma for each field of each update of the state, and what the two exits of an
operation leave. -/

namespace Sys2Proof.Machine

@[simp] theorem answered_req (s : State) (r : Rsp) : (s.answered r).req = s.req := rfl
@[simp] theorem answered_rsp (s : State) (r : Rsp) : (s.answered r).rsp = r := rfl
@[simp] theorem answered_running (s : State) (r : Rsp) : (s.answered r).running = false := rfl

/-- A response is overwritten whole, so only the request of the state before matters. -/
theorem answered_answered (s : State) (r r' : Rsp) :
    (s.answered r).answered r' = s.answered r' := rfl

@[simp] theorem raiseError_eq (e : ErrorKind) (s : State) :
    raiseError e s = s.answered (failed e) := rfl

@[simp] theorem returnOk_eq (r : Rsp) (s : State) :
    returnOk r s = s.answered { r with status := some .ok } := rfl

@[simp] theorem blank_status : Rsp.blank.status = none := rfl
@[simp] theorem blank_obuf : Rsp.blank.obuf = none := rfl
@[simp] theorem blank_h : Rsp.blank.h = none := rfl
@[simp] theorem blank_name : Rsp.blank.name = none := rfl
@[simp] theorem blank_q : Rsp.blank.q = none := rfl
@[simp] theorem blank_rr : Rsp.blank.rr = none := rfl
@[simp] theorem blank_qlist : Rsp.blank.qlist = none := rfl
@[simp] theorem blank_newoff : Rsp.blank.newoff = none := rfl

@[simp] theorem failed_status (e : ErrorKind) : (failed e).status = some (.error e) := rfl
@[simp] theorem failed_obuf (e : ErrorKind) : (failed e).obuf = none := rfl
@[simp] theorem failed_h (e : ErrorKind) : (failed e).h = none := rfl
@[simp] theorem failed_name (e : ErrorKind) : (failed e).name = none := rfl
@[simp] theorem failed_q (e : ErrorKind) : (failed e).q = none := rfl
@[simp] theorem failed_rr (e : ErrorKind) : (failed e).rr = none := rfl
@[simp] theorem failed_qlist (e : ErrorKind) : (failed e).qlist = none := rfl
@[simp] theorem failed_newoff (e : ErrorKind) : (failed e).newoff = none := rfl

@[simp] theorem okOutput_status (b : Bytes) : (okOutput b).status = some .ok := rfl
@[simp] theorem okOutput_obuf (b : Bytes) : (okOutput b).obuf = some b := rfl
@[simp] theorem okOutput_h (b : Bytes) : (okOutput b).h = none := rfl
@[simp] theorem okOutput_name (b : Bytes) : (okOutput b).name = none := rfl
@[simp] theorem okOutput_q (b : Bytes) : (okOutput b).q = none := rfl
@[simp] theorem okOutput_rr (b : Bytes) : (okOutput b).rr = none := rfl
@[simp] theorem okOutput_qlist (b : Bytes) : (okOutput b).qlist = none := rfl
@[simp] theorem okOutput_newoff (b : Bytes) : (okOutput b).newoff = none := rfl

@[simp] theorem withFetchWord_rsp (s : State) (n w : Nat) :
    (s.withFetchWord n w).rsp = s.rsp := rfl
@[simp] theorem withFetchWord_running (s : State) (n w : Nat) :
    (s.withFetchWord n w).running = true := rfl
@[simp] theorem withFetchWord_op (s : State) (n w : Nat) :
    (s.withFetchWord n w).req.op = some (opOfWord w) := rfl

/-- Everything `conclude` can do: it always answers a next state. -/
theorem conclude_eq (r : Codec Rsp) (s : State) :
    (∃ results, r = .ok results ∧
      conclude r s = .next (s.answered { results with status := some .ok })) ∨
    (∃ e, r = .error e ∧ conclude r s = .next (s.answered (failed e))) := by
  cases r with
  | ok results => exact .inl ⟨results, rfl, rfl⟩
  | error e => exact .inr ⟨e, rfl, rfl⟩

/-- Everything `operand` can do. -/
theorem operand_eq_next {α : Type} {o : Option α} {k : α → Result} {t : State}
    (h : operand o k = .next t) : ∃ a, o = some a ∧ k a = .next t := by
  cases o with
  | some a => exact ⟨a, rfl, h⟩
  | none => simp [operand] at h

@[simp] theorem operand_some {α : Type} (a : α) (k : α → Result) :
    operand (some a) k = k a := rfl

@[simp] theorem operand_none {α : Type} (k : α → Result) :
    operand none k = .refused .incompleteRequest := rfl

end Sys2Proof.Machine
end

