-- ==== Sys2Proof/Laws/Ops.lean ====
section
/-! SUPPORT. What the access primitives do, said once (20_memory.md R50 to R54). -/

namespace Sys2Proof.Machine

/-! ### Reading -/

theorem readBytes_error {buf : Bytes} {off n : Nat} (h : buf.length < off + n) :
    readBytes buf off n = .error .truncated := by
  simp [readBytes, h]

theorem readBytes_ok {buf : Bytes} {off n : Nat} (h : off + n ≤ buf.length) :
    readBytes buf off n = .ok ((buf.drop off).take n) := by
  simp [readBytes, Nat.not_lt.mpr h]

/-- Inversion of `readBytes`. -/
theorem readBytes_cases (buf : Bytes) (off n : Nat) :
    (off + n ≤ buf.length ∧ readBytes buf off n = .ok ((buf.drop off).take n)) ∨
    (buf.length < off + n ∧ readBytes buf off n = .error .truncated) := by
  rcases Nat.lt_or_ge buf.length (off + n) with h | h
  · exact .inr ⟨h, readBytes_error h⟩
  · exact .inl ⟨h, readBytes_ok h⟩

theorem drop_take_middle (p d t : Bytes) :
    ((p ++ d ++ t).drop p.length).take d.length = d := by
  simp [List.append_assoc]

/-- Inversion of `memRead`. -/
theorem memRead_cases (w : Nat) (buf : Bytes) (off : Nat) :
    (off + w / 8 ≤ buf.length ∧
      memRead w buf off = .ok (beValue w ((buf.drop off).take (w / 8)))) ∨
    (buf.length < off + w / 8 ∧ memRead w buf off = .error .truncated) := by
  rcases readBytes_cases buf off (w / 8) with ⟨h, e⟩ | ⟨h, e⟩
  · exact .inl ⟨h, by simp [memRead, e]⟩
  · exact .inr ⟨h, by simp [memRead, e]⟩

theorem memRead_error {w : Nat} {buf : Bytes} {off : Nat} (h : buf.length < off + w / 8) :
    memRead w buf off = .error .truncated := by
  simp [memRead, readBytes_error h]

theorem shift_or_byte (x : Nat) (b : Byte) : x <<< 8 ||| b.toNat = x * 256 + b.toNat := by
  rw [← Nat.shiftLeft_add_eq_or_of_lt b.isLt, Nat.shiftLeft_eq]

theorem toNat_append_byte {n : Nat} (v : BitVec n) (b : Byte) :
    (v ++ b).toNat = v.toNat * 256 + b.toNat := by
  rw [BitVec.toNat_append, shift_or_byte]

/-- One pass of the loop of `MemRead`, as numbers. -/
theorem beStep_toNat {w : Nat} (hw : 8 ≤ w) (v : BitVec w) (b : Byte) (hv : v.toNat * 256 < 2 ^ w) :
    ((v <<< 8) ||| b.setWidth w).toNat = v.toNat * 256 + b.toNat := by
  have hb : b.toNat < 2 ^ w := Nat.lt_of_lt_of_le b.isLt (Nat.pow_le_pow_right (by omega) hw)
  rw [BitVec.toNat_or, BitVec.toNat_shiftLeft, BitVec.toNat_setWidth, Nat.mod_eq_of_lt hb,
    Nat.shiftLeft_eq, Nat.mod_eq_of_lt (by simpa using hv), ← shift_or_byte, Nat.shiftLeft_eq]

theorem beValue_one (a : Byte) : beValue 8 [a] = a := by
  simp [beValue]

theorem beValue_two (a b : Byte) : beValue 16 [a, b] = a ++ b := by
  apply BitVec.eq_of_toNat_eq
  have ha := a.isLt
  have h1 := beStep_toNat (w := 16) (by omega) 0#16 a (by simp)
  rw [toNat_append_byte]
  simp only [beValue, List.foldl]
  rw [beStep_toNat (by omega) _ _ (by rw [h1]; simp; omega), h1]
  simp

theorem beValue_four (a b c d : Byte) : beValue 32 [a, b, c, d] = a ++ b ++ c ++ d := by
  apply BitVec.eq_of_toNat_eq
  have ha := a.isLt
  have hb := b.isLt
  have hc := c.isLt
  have h1 := beStep_toNat (w := 32) (by omega) 0#32 a (by simp)
  have h2 := beStep_toNat (w := 32) (by omega) _ b (by rw [h1]; simp; omega)
  rw [h1] at h2
  have h3 := beStep_toNat (w := 32) (by omega) _ c (by rw [h2]; simp; omega)
  rw [h2] at h3
  rw [toNat_append_byte, toNat_append_byte, toNat_append_byte]
  simp only [beValue, List.foldl]
  rw [beStep_toNat (by omega) _ _ (by rw [h3]; simp; omega), h3]
  simp

theorem memRead_bytes {w : Nat} (p d t : Bytes) (h : d.length = w / 8) :
    memRead w (p ++ d ++ t) p.length = .ok (beValue w d) := by
  simp [memRead, readBytes, ← h]

/-! ### The bytes of a field -/

theorem be_length (n v : Nat) : (be n v).length = n := by simp [be]

theorem be_two (v : Nat) : be 2 v = [BitVec.ofNat 8 (v >>> 8), BitVec.ofNat 8 v] := by
  simp [be, List.range, List.range.loop]

theorem be_four (v : Nat) :
    be 4 v = [BitVec.ofNat 8 (v >>> 24), BitVec.ofNat 8 (v >>> 16), BitVec.ofNat 8 (v >>> 8),
      BitVec.ofNat 8 v] := by
  simp [be, List.range, List.range.loop]

theorem be_two_eq (v : U16) : be 2 v.toNat = bytes16 v := by
  simp [be_two, bytes16]
  constructor <;> (apply BitVec.eq_of_toNat_eq; simp)

theorem be_four_eq (v : U32) : be 4 v.toNat = bytes32 v := by
  simp [be_four, bytes32]
  refine ⟨?_, ?_, ?_, ?_⟩ <;> (apply BitVec.eq_of_toNat_eq; simp)

theorem append_of_bytes16 (v : U16) : v.extractLsb' 8 8 ++ v.extractLsb' 0 8 = v := by
  apply BitVec.eq_of_toNat_eq
  have := v.isLt
  rw [toNat_append_byte]
  simp [Nat.shiftRight_eq_div_pow]
  omega

theorem append_of_bytes32 (v : U32) :
    v.extractLsb' 24 8 ++ v.extractLsb' 16 8 ++ v.extractLsb' 8 8 ++ v.extractLsb' 0 8 = v := by
  apply BitVec.eq_of_toNat_eq
  have := v.isLt
  simp only [toNat_append_byte]
  simp [Nat.shiftRight_eq_div_pow]
  omega

theorem memRead_bytes16 (p t : Bytes) (v : U16) :
    memRead 16 (p ++ bytes16 v ++ t) p.length = .ok v := by
  rw [memRead_bytes _ _ _ (by rfl), bytes16, beValue_two, append_of_bytes16]

theorem memRead_bytes32 (p t : Bytes) (v : U32) :
    memRead 32 (p ++ bytes32 v ++ t) p.length = .ok v := by
  rw [memRead_bytes _ _ _ (by rfl), bytes32, beValue_four, append_of_bytes32]

/-- A 16-bit field at offset `off` of a buffer. -/
theorem memRead16_at {buf p t : Bytes} {off : Nat} {v : U16} (hb : buf = p ++ (bytes16 v ++ t))
    (ho : off = p.length) : memRead 16 buf off = .ok v := by
  rw [hb, ho, ← List.append_assoc, memRead_bytes16]

/-- A 32-bit field at offset `off` of a buffer. -/
theorem memRead32_at {buf p t : Bytes} {off : Nat} {v : U32} (hb : buf = p ++ (bytes32 v ++ t))
    (ho : off = p.length) : memRead 32 buf off = .ok v := by
  rw [hb, ho, ← List.append_assoc, memRead_bytes32]

/-- A byte string at offset `off` of a buffer. -/
theorem readBytes_at {buf p d t : Bytes} {off n : Nat} (hb : buf = p ++ (d ++ t))
    (ho : off = p.length) (hn : n = d.length) : readBytes buf off n = .ok d := by
  subst hb ho hn
  rw [readBytes_ok (by simp)]
  simp

@[simp] theorem bytes16_length (v : U16) : (bytes16 v).length = 2 := rfl
@[simp] theorem bytes32_length (v : U32) : (bytes32 v).length = 4 := rfl

/-- Two bytes are those of some 16-bit field. -/
theorem bytes16_append (a b : Byte) : bytes16 (a ++ b) = [a, b] := by
  have ha := a.isLt
  have hb := b.isLt
  have e := toNat_append_byte a b
  simp only [bytes16, List.cons.injEq, and_true]
  constructor <;> apply BitVec.eq_of_toNat_eq <;>
    simp only [BitVec.extractLsb'_toNat, Nat.shiftRight_eq_div_pow, e] <;> omega

/-- Two bytes at the head of a list are a 16-bit field. -/
theorem exists_bytes16 {t : Bytes} (h : 2 ≤ t.length) : ∃ v r, t = bytes16 v ++ r := by
  match t, h with
  | a :: b :: r, _ => exact ⟨a ++ b, r, by rw [bytes16_append]; rfl⟩

/-- Four bytes are those of some 32-bit field. -/
theorem bytes32_append (a b c d : Byte) : bytes32 (a ++ b ++ c ++ d) = [a, b, c, d] := by
  have ha := a.isLt
  have hb := b.isLt
  have hc := c.isLt
  have hd := d.isLt
  have e : (a ++ b ++ c ++ d).toNat =
      ((a.toNat * 256 + b.toNat) * 256 + c.toNat) * 256 + d.toNat := by
    simp only [toNat_append_byte]
  simp only [bytes32, List.cons.injEq, and_true]
  refine ⟨?_, ?_, ?_, ?_⟩ <;> apply BitVec.eq_of_toNat_eq <;>
    simp only [BitVec.extractLsb'_toNat, Nat.shiftRight_eq_div_pow, e] <;> omega

theorem exists_bytes32 {t : Bytes} (h : 4 ≤ t.length) : ∃ v r, t = bytes32 v ++ r := by
  match t, h with
  | a :: b :: c :: d :: r, _ =>
    exact ⟨a ++ b ++ c ++ d, r, by rw [bytes32_append]; rfl⟩

/-! ### Appending -/

theorem emit_eq (out : Bytes) (n v : Nat) : emit out n v = out ++ be n v := by
  simp [emit, memWrite]

theorem emitBytes_eq (out s : Bytes) : emitBytes out s = out ++ s := by
  induction s generalizing out with
  | nil => simp [emitBytes]
  | cons b s ih =>
    have := ih (emit out 1 b.toNat)
    rw [emitBytes] at this ⊢
    rw [List.foldl_cons, this, emit_eq]
    simp [be, List.range, List.range.loop]

/-- The results of an encoder: its bytes, or its error. -/
theorem encoded_ok {r : Codec Bytes} {b : Bytes} (h : r = .ok b) :
    encoded r = .ok { Rsp.blank with obuf := some b } := by
  simp [encoded, h, Except.map, emitBytes_eq, outStart]

theorem encoded_error {r : Codec Bytes} {e : ErrorKind} (h : r = .error e) :
    encoded r = .error e := by
  simp [encoded, h, Except.map]

/-- How an encoding operation ends, on either side. -/
theorem conclude_encoded_ok {r : Codec Bytes} {b : Bytes} (h : r = .ok b) (s : State) :
    conclude (encoded r) s = .next (s.answered (okOutput b)) := by
  rw [encoded_ok h]; rfl

theorem conclude_encoded_error {r : Codec Bytes} {e : ErrorKind} (h : r = .error e) (s : State) :
    conclude (encoded r) s = .next (s.answered (failed e)) := by
  rw [encoded_error h]; rfl

/-- How a decoding operation ends, on either side. -/
theorem conclude_map_ok {α : Type} {r : Codec α} {a : α} (h : r = .ok a) (f : α → Rsp)
    (s : State) :
    conclude (r.map f) s = .next (s.answered { f a with status := some .ok }) := by
  rw [h]; rfl

theorem conclude_map_error {α : Type} {r : Codec α} {e : ErrorKind} (h : r = .error e)
    (f : α → Rsp) (s : State) :
    conclude (r.map f) s = .next (s.answered (failed e)) := by
  rw [h]; rfl

end Sys2Proof.Machine
end

