-- ==== Sys2Proof/Laws/Header.lean ====
section
/-! SUPPORT. What the header codec does, said once (41_header.md). -/

namespace Sys2Proof.Machine

theorem flagBit_getElem (b : Bool) (i : Nat) (h : i < 16) :
    (flagBit b)[i] = (decide (i = 0) && b) := by
  cases b <;> simp [flagBit]

theorem bitByte_getElem (b : Bool) (i : Nat) (h : i < 8) :
    (bitByte b)[i] = (decide (i = 0) && b) := by
  cases b <;> simp [bitByte]

/-- The high byte of the flag word (30_encoding.md R76). -/
theorem packFlags_high (h : Header) : (packFlags h).extractLsb' 8 8 = flagByteHigh h := by
  apply BitVec.eq_of_getLsbD_eq
  intro i hi
  interval_cases i <;> simp [packFlags, flagByteHigh, flagBit_getElem, bitByte_getElem]

/-- The low byte of the flag word (30_encoding.md R76). -/
theorem packFlags_low (h : Header) : (packFlags h).extractLsb' 0 8 = flagByteLow h := by
  apply BitVec.eq_of_getLsbD_eq
  intro i hi
  interval_cases i <;> simp [packFlags, flagByteLow, flagBit_getElem, bitByte_getElem]

/-- A header is six 16-bit fields. -/
theorem wireHeader_fields (h : Header) :
    wireHeader h = bytes16 h.id ++ (bytes16 (packFlags h) ++ (bytes16 h.qdcount ++
      (bytes16 h.ancount ++ (bytes16 h.nscount ++ bytes16 h.arcount)))) := by
  simp only [wireHeader, List.append_assoc]
  rw [← packFlags_high, ← packFlags_low]
  rfl

/-- `hdrEnc` is the wire form of the header (30_encoding.md R74 to R76). -/
theorem hdrEnc_eq (h : Header) : hdrEnc h = wireHeader h := by
  simp only [hdrEnc, be_two_eq, wireHeader_fields, List.append_assoc]

@[simp] theorem wireHeader_length (h : Header) : (wireHeader h).length = 12 := rfl

/-- The Header record made of a flag word and the other five fields (41_header.md R92). -/
def unpackHeader (id flags qd an ns ar : U16) : Header :=
  { id := id
    qr := testBit flags 15
    opcode := flagField flags 11 4
    aa := testBit flags 10
    tc := testBit flags 9
    rd := testBit flags 8
    ra := testBit flags 7
    z := flagField flags 4 3
    rcode := flagField flags 0 4
    qdcount := qd
    ancount := an
    nscount := ns
    arcount := ar }

theorem hdrDec_short {buf : Bytes} (h : buf.length < 12) : hdrDec buf = .error .truncated := by
  rw [hdrDec, if_pos (by simpa [Config.hdrLen] using h)]

/-- Everything `hdrDec` can do on 12 bytes or more. -/
theorem hdrDec_fields (id flags qd an ns ar : U16) (t : Bytes) :
    hdrDec (bytes16 id ++ (bytes16 flags ++ (bytes16 qd ++ (bytes16 an ++ (bytes16 ns ++
      (bytes16 ar ++ t)))))) = .ok (unpackHeader id flags qd an ns ar) := by
  generalize hb : bytes16 id ++ (bytes16 flags ++ (bytes16 qd ++ (bytes16 an ++ (bytes16 ns ++
      (bytes16 ar ++ t))))) = buf
  have r0 : memRead 16 buf 0 = .ok id := memRead16_at (p := []) hb.symm rfl
  have r2 : memRead 16 buf 2 = .ok flags :=
    memRead16_at (p := bytes16 id) hb.symm rfl
  have r4 : memRead 16 buf 4 = .ok qd :=
    memRead16_at (p := bytes16 id ++ bytes16 flags) (by simpa using hb.symm) rfl
  have r6 : memRead 16 buf 6 = .ok an :=
    memRead16_at (p := bytes16 id ++ bytes16 flags ++ bytes16 qd) (by simpa using hb.symm) rfl
  have r8 : memRead 16 buf 8 = .ok ns :=
    memRead16_at (p := bytes16 id ++ bytes16 flags ++ bytes16 qd ++ bytes16 an)
      (by simpa using hb.symm) rfl
  have r10 : memRead 16 buf 10 = .ok ar :=
    memRead16_at (p := bytes16 id ++ bytes16 flags ++ bytes16 qd ++ bytes16 an ++ bytes16 ns)
      (by simpa using hb.symm) rfl
  rw [hdrDec, if_neg (by rw [← hb]; simp [Config.hdrLen]; omega), r0, r2, r4, r6, r8, r10]
  rfl

/-- The fields of a packed flag word are the ones packed (30_encoding.md R75). -/
theorem unpackHeader_packFlags (h : Header) :
    unpackHeader h.id (packFlags h) h.qdcount h.ancount h.nscount h.arcount = h := by
  obtain ⟨id, qr, opcode, aa, tc, rd, ra, z, rcode, qd, an, ns, ar⟩ := h
  simp only [unpackHeader, Header.mk.injEq, true_and, and_true]
  refine ⟨?_, ?_, ?_, ?_, ?_, ?_, ?_, ?_⟩
  · simp [testBit, packFlags, flagBit_getElem]
  · apply BitVec.eq_of_getLsbD_eq
    intro i hi
    interval_cases i <;> simp [flagField, packFlags, flagBit_getElem]
  · simp [testBit, packFlags, flagBit_getElem]
  · simp [testBit, packFlags, flagBit_getElem]
  · simp [testBit, packFlags, flagBit_getElem]
  · simp [testBit, packFlags, flagBit_getElem]
  · apply BitVec.eq_of_getLsbD_eq
    intro i hi
    interval_cases i <;> simp [flagField, packFlags, flagBit_getElem]
  · apply BitVec.eq_of_getLsbD_eq
    intro i hi
    interval_cases i <;> simp [flagField, packFlags]

/-- `hdrDec` of a wire form, whatever follows. -/
theorem hdrDec_wireHeader (h : Header) (t : Bytes) : hdrDec (wireHeader h ++ t) = .ok h := by
  rw [wireHeader_fields]
  simp only [List.append_assoc]
  rw [hdrDec_fields, unpackHeader_packFlags]

/-- Any 12 bytes are six 16-bit fields, and so the wire form of a header. -/
theorem packFlags_unpackHeader (id flags qd an ns ar : U16) :
    packFlags (unpackHeader id flags qd an ns ar) = flags := by
  apply BitVec.eq_of_getLsbD_eq
  intro i hi
  interval_cases i <;> simp [packFlags, unpackHeader, flagField, testBit, flagBit_getElem]

/-- A buffer of 12 bytes or more is the wire form of one header and a rest. -/
theorem exists_wireHeader {buf : Bytes} (h : 12 ≤ buf.length) :
    ∃ hd t, buf = wireHeader hd ++ t := by
  obtain ⟨id, r, rfl⟩ := exists_bytes16 (t := buf) (by omega)
  obtain ⟨fl, r, rfl⟩ := exists_bytes16 (t := r) (by simp at h; omega)
  obtain ⟨qd, r, rfl⟩ := exists_bytes16 (t := r) (by simp at h; omega)
  obtain ⟨an, r, rfl⟩ := exists_bytes16 (t := r) (by simp at h; omega)
  obtain ⟨ns, r, rfl⟩ := exists_bytes16 (t := r) (by simp at h; omega)
  obtain ⟨ar, r, rfl⟩ := exists_bytes16 (t := r) (by simp at h; omega)
  refine ⟨unpackHeader id fl qd an ns ar, r, ?_⟩
  rw [wireHeader_fields, packFlags_unpackHeader]
  simp [unpackHeader]

/-- Everything `hdrDec` can do (41_header.md R92). -/
theorem hdrDec_cases (buf : Bytes) :
    (buf.length < 12 ∧ hdrDec buf = .error .truncated) ∨
    (∃ h t, buf = wireHeader h ++ t ∧ hdrDec buf = .ok h) := by
  rcases Nat.lt_or_ge buf.length 12 with hl | hl
  · exact .inl ⟨hl, hdrDec_short hl⟩
  · obtain ⟨h, t, rfl⟩ := exists_wireHeader hl
    exact .inr ⟨h, t, rfl, hdrDec_wireHeader h t⟩

end Sys2Proof.Machine
end

