-- ==== Sys2Proof/Laws/Name.lean ====
section
/-! SUPPORT. What the name codec does, said once (42_name.md R100 to R108). -/

namespace Sys2Proof.Machine

/-! ### Splitting and joining -/

theorem split_ne_nil (s : Bytes) : split s ≠ [] := by
  cases s with
  | nil => simp [split]
  | cons b s => simp only [split]; split <;> [simp; (split <;> simp)]

/-- The pieces of a byte followed by more: one equation for each kind of byte. -/
theorem split_sep (s : Bytes) : split (Config.sep :: s) = [] :: split s := by simp [split]

theorem split_byte {b : Byte} {s l : Bytes} {ls : List Bytes} (hb : b ≠ Config.sep)
    (h : split s = l :: ls) : split (b :: s) = (b :: l) :: ls := by
  simp [split, hb, h]

theorem split_cases (s : Bytes) : ∃ l ls, split s = l :: ls := by
  cases h : split s with
  | nil => exact absurd h (split_ne_nil s)
  | cons l ls => exact ⟨l, ls, rfl⟩

theorem join_cons_cons (l l' : Bytes) (ls : List Bytes) :
    join (l :: l' :: ls) = l ++ Config.sep :: join (l' :: ls) := rfl

theorem join_byte (b : Byte) (l : Bytes) (ls : List Bytes) :
    join ((b :: l) :: ls) = b :: join (l :: ls) := by
  cases ls <;> simp [join]

theorem join_split_self (s : Bytes) : join (split s) = s := by
  induction s with
  | nil => rfl
  | cons b s ih =>
    obtain ⟨l, ls, h⟩ := split_cases s
    by_cases hb : b = Config.sep
    · subst hb
      rw [split_sep, h, join_cons_cons, ← h, ih]
      rfl
    · rw [split_byte hb h, join_byte, ← h, ih]

/-- Splitting inside a clean label, before a separator or at the end. -/
theorem split_clean_append {l : Bytes} (hl : labelClean l = true) (rest : Bytes) :
    split (l ++ Config.sep :: rest) = l :: split rest := by
  induction l with
  | nil => exact split_sep rest
  | cons b l ih =>
    simp only [labelClean, List.contains_cons, Bool.not_or, Bool.and_eq_true, Bool.not_eq_true',
      beq_eq_false_iff_ne] at hl
    exact split_byte (fun e => hl.1 e.symm) (ih (by simpa [labelClean] using hl.2))

theorem split_clean {l : Bytes} (hl : labelClean l = true) : split l = [l] := by
  induction l with
  | nil => rfl
  | cons b l ih =>
    simp only [labelClean, List.contains_cons, Bool.not_or, Bool.and_eq_true, Bool.not_eq_true',
      beq_eq_false_iff_ne] at hl
    exact split_byte (fun e => hl.1 e.symm) (ih (by simpa [labelClean] using hl.2))

theorem split_join_clean {l : Bytes} {ls : List Bytes} (h : labelsClean (l :: ls)) :
    split (join (l :: ls)) = l :: ls := by
  induction ls generalizing l with
  | nil => exact split_clean (h l (by simp))
  | cons l' ls ih =>
    rw [join_cons_cons, split_clean_append (h l (by simp)),
      ih fun x hx => h x (List.mem_cons_of_mem _ hx)]

theorem split_pieces_clean (s : Bytes) : labelsClean (split s) := by
  induction s with
  | nil => intro l hl; simp [split] at hl; simp [hl, labelClean]
  | cons b s ih =>
    obtain ⟨l, ls, h⟩ := split_cases s
    by_cases hb : b = Config.sep
    · subst hb
      rw [split_sep]
      intro x hx
      rcases List.mem_cons.mp hx with rfl | hx
      · simp [labelClean]
      · exact ih x hx
    · rw [split_byte hb h]
      rw [h] at ih
      intro x hx
      rcases List.mem_cons.mp hx with rfl | hx
      · have := ih l (by simp)
        simp only [labelClean, List.contains_cons, Bool.not_or, Bool.and_eq_true,
          Bool.not_eq_true', beq_eq_false_iff_ne] at this ⊢
        exact ⟨fun e => hb e.symm, this⟩
      · exact ih x (List.mem_cons_of_mem _ hx)

/-! ### Labels as a name's own -/

theorem labelOk_iff (l : Bytes) : labelOk l = true ↔ 1 ≤ l.length ∧ l.length ≤ 63 := by
  rw [labelOk, Bool.and_eq_true, decide_eq_true_eq, decide_eq_true_eq]; rfl

theorem labelsOk_cons {l : Bytes} {ls : List Bytes} :
    labelsOk (l :: ls) ↔ labelOk l = true ∧ labelsOk ls := by simp [labelsOk]

theorem join_eq_nil {ls : List Bytes} (h : labelsOk ls) (e : join ls = []) : ls = [] := by
  match ls, h, e with
  | [], _, _ => rfl
  | [l], h, e =>
    have := (labelOk_iff l).mp (h l (by simp))
    simp [join] at e
    simp [e] at this
  | l :: l' :: ls, _, e => simp [join] at e

/-- The labels of a joined name are the ones it was joined from (42_name.md R100). -/
theorem nameLabels_join {ls : List Bytes} (h : labelsOk ls) (hc : labelsClean ls) :
    nameLabels (join ls) = ls := by
  cases ls with
  | nil => rfl
  | cons l ls =>
    have : join (l :: ls) ≠ [] := fun e => by simpa using join_eq_nil h e
    rw [nameLabels, if_neg this, split_join_clean hc]

theorem nameLabels_clean (s : Bytes) : labelsClean (nameLabels s) := by
  by_cases h : s = []
  · intro l hl; simp [nameLabels, h] at hl
  · rw [nameLabels, if_neg h]; exact split_pieces_clean s

theorem join_nameLabels (s : Bytes) : join (nameLabels s) = s := by
  by_cases h : s = []
  · simp [nameLabels, h, join]
  · rw [nameLabels, if_neg h, join_split_self]

/-! ### Encoding -/

@[simp] theorem wireLabels_nil : wireLabels [] = [] := rfl

@[simp] theorem wireLabels_cons (l : Bytes) (ls : List Bytes) :
    wireLabels (l :: ls) = BitVec.ofNat 8 l.length :: l ++ wireLabels ls := rfl

/-- Everything `encodeLabels` can do. -/
theorem encodeLabels_eq (ls : List Bytes) :
    (labelsOk ls ∧ encodeLabels ls = .ok (wireLabels ls)) ∨
    (¬ labelsOk ls ∧ encodeLabels ls = .error .invalidLabel) := by
  induction ls with
  | nil => exact .inl ⟨by simp [labelsOk], rfl⟩
  | cons l ls ih =>
    by_cases hl : labelOk l = true
    · have hl' := (labelOk_iff l).mp hl
      have hc : ¬ (l.length = 0 ∨ l.length > Config.maxLabel) := by
        simp only [Config.maxLabel]; omega
      rcases ih with ⟨h, e⟩ | ⟨h, e⟩
      · exact .inl ⟨labelsOk_cons.mpr ⟨hl, h⟩, by rw [encodeLabels, if_neg hc, e]; rfl⟩
      · exact .inr ⟨fun hk => h (labelsOk_cons.mp hk).2, by rw [encodeLabels, if_neg hc, e]; rfl⟩
    · have hc : l.length = 0 ∨ l.length > Config.maxLabel := by
        rw [labelOk_iff] at hl
        simp only [Config.maxLabel]; omega
      exact .inr ⟨fun hk => hl (labelsOk_cons.mp hk).1, by rw [encodeLabels, if_pos hc]⟩

/-- Everything `nameEnc` can do (42_name.md R101). -/
theorem nameEnc_eq (s : Bytes) :
    (labelsOk (nameLabels s) ∧ nameEnc s = .ok (wireName (nameLabels s))) ∨
    (¬ labelsOk (nameLabels s) ∧ nameEnc s = .error .invalidLabel) := by
  by_cases h : s = []
  · subst h
    exact .inl ⟨by simp [nameLabels, labelsOk], rfl⟩
  · rw [nameLabels, if_neg h, nameEnc, if_neg h]
    rcases encodeLabels_eq (split s) with ⟨hk, e⟩ | ⟨hk, e⟩
    · exact .inl ⟨hk, by rw [e]; rfl⟩
    · exact .inr ⟨hk, by rw [e]; rfl⟩

theorem nameEnc_ok {s : Bytes} (h : labelsOk (nameLabels s)) :
    nameEnc s = .ok (wireName (nameLabels s)) := by
  rcases nameEnc_eq s with ⟨_, e⟩ | ⟨hn, _⟩
  · exact e
  · exact absurd h hn

theorem nameEnc_error {s : Bytes} (h : ¬ labelsOk (nameLabels s)) :
    nameEnc s = .error .invalidLabel := by
  rcases nameEnc_eq s with ⟨hk, _⟩ | ⟨_, e⟩
  · exact absurd hk h
  · exact e

/-! ### Decoding -/

theorem lengthClass_cases (n : Byte) :
    (n.toNat = 0 ∧ lengthClass n = .terminator) ∨
    (0xC0 ≤ n.toNat ∧ lengthClass n = .pointer) ∨
    (0x40 ≤ n.toNat ∧ n.toNat < 0xC0 ∧ lengthClass n = .invalid) ∨
    (1 ≤ n.toNat ∧ n.toNat < 0x40 ∧ lengthClass n = .label) := by
  unfold lengthClass
  split
  · left; simp_all
  · split
    · right; left; simp_all
    · split
      · right; right; left; exact ⟨by omega, by omega, rfl⟩
      · right; right; right; exact ⟨by omega, by omega, rfl⟩

theorem lengthByte_toNat {l : Bytes} (h : labelOk l = true) :
    (BitVec.ofNat 8 l.length : Byte).toNat = l.length := by
  have := (labelOk_iff l).mp h
  simp; omega

theorem lengthByte_class {l : Bytes} (h : labelOk l = true) :
    lengthClass (BitVec.ofNat 8 l.length) = .label := by
  have := (labelOk_iff l).mp h
  have e := lengthByte_toNat h
  rcases lengthClass_cases (BitVec.ofNat 8 l.length) with c | c | c | c
  · omega
  · omega
  · omega
  · exact c.2.2

/-- Reading the byte at a known place of a buffer. -/
theorem memRead_byte (p t : Bytes) (n : Byte) : memRead 8 (p ++ n :: t) p.length = .ok n := by
  have := memRead_bytes (w := 8) p [n] t rfl
  rw [beValue_one] at this
  simpa using this

/-- One pass of the loop over a whole label. -/
theorem nameDecLoop_label {l : Bytes} (h : labelOk l = true) (p t : Bytes) (passes : Nat)
    (labels : List Bytes) :
    nameDecLoop (p ++ (BitVec.ofNat 8 l.length :: l ++ t)) (passes + 1) p.length labels =
      nameDecLoop (p ++ (BitVec.ofNat 8 l.length :: l ++ t)) passes (p.length + 1 + l.length)
        (labels ++ [l]) := by
  have hr : readBytes (p ++ (BitVec.ofNat 8 l.length :: l ++ t)) (p.length + 1) l.length =
      .ok l := by
    have := drop_take_middle (p ++ [BitVec.ofNat 8 l.length]) l t
    simp only [List.append_assoc, List.length_append, List.length_singleton,
      List.singleton_append] at this
    rw [readBytes_ok (by simp; omega)]
    exact congrArg _ this
  rw [nameDecLoop, List.cons_append, memRead_byte]
  simp only [lengthByte_class h, lengthByte_toNat h]
  rw [← List.cons_append, hr]

/-- The loop over any number of whole labels. -/
theorem nameDecLoop_labels (ls : List Bytes) (h : labelsOk ls) (p t : Bytes) (passes : Nat)
    (labels : List Bytes) :
    nameDecLoop (p ++ (wireLabels ls ++ t)) (passes + ls.length) p.length labels =
      nameDecLoop (p ++ (wireLabels ls ++ t)) passes (p.length + (wireLabels ls).length)
        (labels ++ ls) := by
  induction ls generalizing p labels with
  | nil => simp
  | cons l ls ih =>
    obtain ⟨hl, hls⟩ := labelsOk_cons.mp h
    have step := nameDecLoop_label hl p (wireLabels ls ++ t) (passes + ls.length) labels
    have rest := ih hls (p ++ (BitVec.ofNat 8 l.length :: l)) (labels ++ [l])
    simp only [List.append_assoc, List.cons_append, List.length_append, List.length_cons,
      wireLabels_cons, Nat.add_assoc] at step rest ⊢
    rw [step, Nat.add_comm 1 l.length, rest, List.nil_append,
      Nat.add_comm 1 (wireLabels ls).length]

theorem wireLabels_length (ls : List Bytes) (h : labelsOk ls) :
    2 * ls.length ≤ (wireLabels ls).length := by
  induction ls with
  | nil => simp
  | cons l ls ih =>
    obtain ⟨hl, hls⟩ := labelsOk_cons.mp h
    have := (labelOk_iff l).mp hl
    have := ih hls
    simp; omega

/-- `nameDec` after any number of whole labels: at least one more pass is left, whatever
follows. -/
theorem nameDec_labels (p : Bytes) (ls : List Bytes) (rest : Bytes) (h : labelsOk ls) :
    ∃ passes, nameDec (p ++ (wireLabels ls ++ rest)) p.length =
      nameDecLoop (p ++ (wireLabels ls ++ rest)) (passes + 1)
        (p.length + (wireLabels ls).length) ls := by
  have hw := wireLabels_length ls h
  refine ⟨(p ++ (wireLabels ls ++ rest)).length - p.length - ls.length, ?_⟩
  have := nameDecLoop_labels ls h p rest
    ((p ++ (wireLabels ls ++ rest)).length - p.length - ls.length + 1) []
  rw [List.nil_append] at this
  rw [← this, nameDec]
  congr 1
  simp; omega

/-- `nameDec` of a wire form, whatever stands before and after (42_name.md R103). -/
theorem nameDec_wireName (p : Bytes) (ls : List Bytes) (t : Bytes) (h : labelsOk ls) :
    nameDec (p ++ wireName ls ++ t) p.length =
      .ok (join ls, p.length + (wireName ls).length) := by
  obtain ⟨passes, e⟩ := nameDec_labels p ls (0x00#8 :: t) h
  have b := memRead_byte (p ++ wireLabels ls) t 0x00#8
  simp only [List.append_assoc, List.length_append] at b
  have c : lengthClass 0x00#8 = .terminator := rfl
  rw [show p ++ wireName ls ++ t = p ++ (wireLabels ls ++ 0x00#8 :: t) by simp [wireName], e,
    nameDecLoop]
  simp [b, c, wireName, Nat.add_assoc]

/-- What a pass that returns has read: inversion of the loop (42_name.md R103, R107). -/
theorem nameDecLoop_ok {buf : Bytes} {passes c : Nat} {labels : List Bytes} {s : Bytes} {c' : Nat}
    (h : nameDecLoop buf passes c labels = .ok (s, c')) :
    ∃ ls, labelsOk ls ∧ s = join (labels ++ ls) ∧ c' = c + (wireName ls).length ∧
      ∃ t, buf.drop c = wireName ls ++ t := by
  induction passes generalizing c labels with
  | zero => simp [nameDecLoop] at h
  | succ passes ih =>
    rw [nameDecLoop] at h
    rcases memRead_cases 8 buf c with ⟨hc, e⟩ | ⟨hc, e⟩
    swap
    · simp [e] at h
    have hc' : c < buf.length := by omega
    have hd : buf.drop c = buf[c] :: buf.drop (c + 1) := List.drop_eq_getElem_cons hc'
    have e' : memRead 8 buf c = .ok buf[c] := by
      rw [e, hd]
      exact congrArg _ (beValue_one _)
    rw [e'] at h
    generalize hn : buf[c] = n at h hd
    rcases lengthClass_cases n with k | k | k | k
    · simp only [k.2, Except.ok.injEq, Prod.mk.injEq] at h
      refine ⟨[], by simp [labelsOk], by simp [h.1], by simp [wireName, ← h.2], buf.drop (c + 1), ?_⟩
      rw [hd, show n = 0x00#8 from BitVec.eq_of_toNat_eq (by simpa using k.1)]
      simp [wireName]
    · simp [k.2] at h
    · simp [k.2.2] at h
    · simp only [k.2.2] at h
      rcases readBytes_cases buf (c + 1) n.toNat with ⟨hr, er⟩ | ⟨hr, er⟩
      swap
      · simp [er] at h
      simp only [er] at h
      obtain ⟨ls, hls, hs, hc', t, ht⟩ := ih h
      have hlen : ((buf.drop (c + 1)).take n.toNat).length = n.toNat := by simp; omega
      refine ⟨(buf.drop (c + 1)).take n.toNat :: ls, labelsOk_cons.mpr ⟨?_, hls⟩, by simpa using hs,
        ?_, t, ?_⟩
      · rw [labelOk_iff, hlen]; omega
      · rw [hc']; simp only [wireName, wireLabels_cons, List.length_append, List.length_cons, hlen]
        omega
      · rw [hd]
        have hb : BitVec.ofNat 8 ((buf.drop (c + 1)).take n.toNat).length = n := by
          rw [hlen]; apply BitVec.eq_of_toNat_eq; simp
        simp only [wireName, wireLabels_cons, hb, List.cons_append, List.append_assoc]
        congr 1
        rw [wireName, List.append_assoc, List.singleton_append] at ht
        rw [List.nil_append, ← ht, show c + 1 + n.toNat = (c + 1) + n.toNat from rfl, ← List.drop_drop (i := n.toNat)]
        exact (List.take_append_drop _ _).symm

/-- Everything a successful `nameDec` tells: the buffer around the name (42_name.md R107). -/
theorem nameDec_ok {buf : Bytes} {off : Nat} {s : Bytes} {off' : Nat}
    (h : nameDec buf off = .ok (s, off')) :
    ∃ p ls t, labelsOk ls ∧ s = join ls ∧ p.length = off ∧ off' = off + (wireName ls).length ∧
      buf = p ++ wireName ls ++ t := by
  obtain ⟨ls, hk, hs, hc, t, ht⟩ := nameDecLoop_ok h
  have hlen : off ≤ buf.length := by
    rcases Nat.lt_or_ge buf.length off with hl | hl
    · rw [List.drop_eq_nil_of_le (by omega)] at ht
      simp [wireName] at ht
    · exact hl
  refine ⟨buf.take off, ls, t, hk, by simpa using hs, by simp [hlen], hc, ?_⟩
  rw [List.append_assoc, ← ht, List.take_append_drop]

/-- The errors of the loop (42_name.md R104). -/
theorem nameDecLoop_error {buf : Bytes} {passes c : Nat} {labels : List Bytes} {e : ErrorKind}
    (h : nameDecLoop buf passes c labels = .error e) :
    e = .truncated ∨ e = .invalidLabel ∨ e = .unsupportedCompression := by
  induction passes generalizing c labels with
  | zero => simp [nameDecLoop] at h; exact .inl h.symm
  | succ passes ih =>
    rw [nameDecLoop] at h
    rcases memRead_cases 8 buf c with ⟨_, e'⟩ | ⟨_, e'⟩
    · simp only [e'] at h
      split at h
      · simp at h
      · simp at h; exact .inr (.inr h.symm)
      · simp at h; exact .inr (.inl h.symm)
      · rcases readBytes_cases buf (c + 1) (beValue 8 ((buf.drop c).take (8 / 8))).toNat with
          ⟨_, er⟩ | ⟨_, er⟩
        · rw [er] at h; exact ih h
        · rw [er] at h; simp at h; exact .inl h.symm
    · simp [e'] at h; exact .inl h.symm

end Sys2Proof.Machine
end

