-- ==== Sys2Proof/Laws/Question.lean ====
section
/-! SUPPORT. What the question codec does, said once (43_question.md). -/

namespace Sys2Proof.Machine

/-- `qEnc` of a question that is accepted (43_question.md R115). -/
theorem qEnc_ok {q : Question} (h : questionOk q) :
    qEnc q = .ok (wireQuestion (nameLabels q.name) q.qtype q.qclass) := by
  rw [qEnc, nameEnc_ok h, be_two_eq, be_two_eq]; rfl

theorem qEnc_error {q : Question} (h : ¬ questionOk q) : qEnc q = .error .invalidLabel := by
  rw [qEnc, nameEnc_error h]; rfl

/-- An error of the name comes before the fixed bytes (43_question.md R122). -/
theorem qDec_name_error {buf : Bytes} {off : Nat} {e : ErrorKind} (h : nameDec buf off = .error e) :
    qDec buf off = .error e := by
  rw [qDec, h]; rfl

theorem qDec_short {buf : Bytes} {off : Nat} {s : Bytes} {c : Nat} (h : nameDec buf off = .ok (s, c))
    (hc : buf.length < c + 4) : qDec buf off = .error .truncated := by
  rw [qDec, h]
  exact if_pos hc

/-- `qDec` of a wire form, whatever stands before and after (43_question.md R117). -/
theorem qDec_wire (p : Bytes) (ls : List Bytes) (qt qc : U16) (t : Bytes) (h : labelsOk ls) :
    qDec (p ++ wireQuestion ls qt qc ++ t) p.length =
      .ok ({ name := join ls, qtype := qt, qclass := qc },
        p.length + (wireQuestion ls qt qc).length) := by
  have hn := nameDec_wireName p ls (bytes16 qt ++ bytes16 qc ++ t) h
  rw [show p ++ wireName ls ++ (bytes16 qt ++ bytes16 qc ++ t) =
    p ++ wireQuestion ls qt qc ++ t by simp [wireQuestion]] at hn
  generalize hb : p ++ wireQuestion ls qt qc ++ t = buf at hn ⊢
  have ht : memRead 16 buf (p.length + (wireName ls).length) = .ok qt :=
    memRead16_at (p := p ++ wireName ls) (t := bytes16 qc ++ t)
      (by rw [← hb]; simp [wireQuestion]) (by simp)
  have hk : memRead 16 buf (p.length + (wireName ls).length + 2) = .ok qc :=
    memRead16_at (p := p ++ wireName ls ++ bytes16 qt) (t := t)
      (by rw [← hb]; simp [wireQuestion]) (by simp; omega)
  have hl : ¬ p.length + (wireName ls).length + 4 > buf.length := by
    rw [← hb]; simp [wireQuestion]; omega
  rw [qDec, hn]
  simp only [bind, Except.bind]
  rw [if_neg hl, ht, hk]
  simp [wireQuestion]; omega

/-- Everything `qDec` can do (43_question.md R117). -/
theorem qDec_cases (buf : Bytes) (off : Nat) :
    (∃ e, nameDec buf off = .error e ∧ qDec buf off = .error e) ∨
    (∃ s c, nameDec buf off = .ok (s, c) ∧ buf.length < c + 4 ∧ qDec buf off = .error .truncated) ∨
    (∃ p ls qt qc t, labelsOk ls ∧ p.length = off ∧ buf = p ++ wireQuestion ls qt qc ++ t ∧
      qDec buf off = .ok ({ name := join ls, qtype := qt, qclass := qc },
        off + (wireQuestion ls qt qc).length)) := by
  cases h : nameDec buf off with
  | error e => exact .inl ⟨e, rfl, qDec_name_error h⟩
  | ok r =>
    obtain ⟨s, c⟩ := r
    obtain ⟨p, ls, t, hk, hs, hp, hc, hb⟩ := nameDec_ok h
    rcases Nat.lt_or_ge buf.length (c + 4) with hl | hl
    · exact .inr (.inl ⟨s, c, rfl, hl, qDec_short h hl⟩)
    · have : 4 ≤ t.length := by
        have : buf.length = p.length + (wireName ls).length + t.length := by rw [hb]; simp; omega
        omega
      obtain ⟨qt, t1, rfl⟩ := exists_bytes16 (t := t) (by omega)
      obtain ⟨qc, t2, rfl⟩ := exists_bytes16 (t := t1) (by simp at this; omega)
      have hb' : buf = p ++ wireQuestion ls qt qc ++ t2 := by simp [hb, wireQuestion]
      refine .inr (.inr ⟨p, ls, qt, qc, t2, hk, hp, hb', ?_⟩)
      rw [hb', ← hp]
      exact qDec_wire p ls qt qc t2 hk

/-- A decoded question and the buffer around it. -/
theorem qDec_ok {buf : Bytes} {off : Nat} {q : Question} {c : Nat} (h : qDec buf off = .ok (q, c)) :
    ∃ p ls qt qc t, labelsOk ls ∧ p.length = off ∧ buf = p ++ wireQuestion ls qt qc ++ t ∧
      q = { name := join ls, qtype := qt, qclass := qc } ∧
      c = off + (wireQuestion ls qt qc).length := by
  rcases qDec_cases buf off with ⟨e, _, he⟩ | ⟨s, c', _, _, he⟩ | ⟨p, ls, qt, qc, t, hk, hp, hb, he⟩
  · rw [he] at h; simp at h
  · rw [he] at h; simp at h
  · rw [he] at h
    simp only [Except.ok.injEq, Prod.mk.injEq] at h
    exact ⟨p, ls, qt, qc, t, hk, hp, hb, h.1.symm, h.2.symm⟩

end Sys2Proof.Machine
end

