-- ==== Sys2Proof/Laws/ResourceRecord.lean ====
section
/-! SUPPORT. What the resource record codec does, said once (44_resource_record.md). -/

namespace Sys2Proof.Machine

theorem dataOk_iff (typeA : U16) (r : ResourceRecord) :
    r.dataOk typeA = true ↔
      r.rdlength.toNat = r.rdata.length ∧ (r.rtype = typeA → r.rdata.length = 4) := by
  simp only [ResourceRecord.dataOk, Bool.and_eq_true, Bool.or_eq_true, decide_eq_true_eq]
  constructor
  · rintro ⟨h, h' | h'⟩
    · exact ⟨h, fun e => absurd e h'⟩
    · exact ⟨h, fun _ => h'⟩
  · rintro ⟨h, h'⟩
    by_cases e : r.rtype = typeA
    · exact ⟨h, .inr (h' e)⟩
    · exact ⟨h, .inl e⟩

/-- Everything `rrEnc` can do (44_resource_record.md R123, R126). -/
theorem rrEnc_cases (typeA : U16) (r : ResourceRecord) :
    (¬ labelsOk (nameLabels r.name) ∧ rrEnc typeA r = .error .invalidLabel) ∨
    (labelsOk (nameLabels r.name) ∧ r.dataOk typeA = false ∧
      rrEnc typeA r = .error .invalidRData) ∨
    (recordOk typeA r ∧ rrEnc typeA r = .ok (wireRecord (nameLabels r.name) r)) := by
  rcases nameEnc_eq r.name with ⟨h, e⟩ | ⟨h, e⟩
  swap
  · exact .inl ⟨h, by rw [rrEnc, e]; rfl⟩
  right
  cases hd : r.dataOk typeA with
  | false =>
    refine .inl ⟨h, rfl, ?_⟩
    rw [← Bool.not_eq_true, dataOk_iff] at hd
    rw [rrEnc, e]
    simp only [bind, Except.bind]
    by_cases h1 : r.rdlength.toNat ≠ r.rdata.length
    · rw [if_pos h1]
    · rw [if_neg h1, if_pos]
      simp only [Config.aRdLen]
      have h2 := not_forall.mp fun hk => hd ⟨not_not.mp h1, hk⟩
      exact h2.elim fun a b => ⟨a, b⟩
  | true =>
    refine .inr ⟨⟨h, hd⟩, ?_⟩
    obtain ⟨h1, h2⟩ := (dataOk_iff typeA r).mp hd
    rw [rrEnc, e]
    simp only [bind, Except.bind]
    rw [if_neg (fun hn => hn h1), if_neg (fun hn => hn.2 (h2 hn.1)), be_two_eq, be_two_eq, be_four_eq,
      be_two_eq]
    rfl

theorem rrEnc_ok {typeA : U16} {r : ResourceRecord} (h : recordOk typeA r) :
    rrEnc typeA r = .ok (wireRecord (nameLabels r.name) r) := by
  rcases rrEnc_cases typeA r with ⟨hn, _⟩ | ⟨_, hd, _⟩ | ⟨_, e⟩
  · exact absurd h.1 hn
  · rw [h.2] at hd; simp at hd
  · exact e

theorem rrDec_name_error {buf : Bytes} {off : Nat} {e : ErrorKind}
    (h : nameDec buf off = .error e) : rrDec buf off = .error e := by
  rw [rrDec, h]; rfl

theorem rrDec_short {buf : Bytes} {off : Nat} {s : Bytes} {c : Nat}
    (h : nameDec buf off = .ok (s, c)) (hc : buf.length < c + 10) :
    rrDec buf off = .error .truncated := by
  rw [rrDec, h]
  exact if_pos hc

/-- The fixed fields after a name, and then as much of the data as is there. -/
theorem rrDec_fixed (p : Bytes) (ls : List Bytes) (t k : U16) (tl : U32) (rl : U16) (d : Bytes)
    (h : labelsOk ls) :
    rrDec (p ++ wireName ls ++ bytes16 t ++ bytes16 k ++ bytes32 tl ++ bytes16 rl ++ d) p.length =
      if d.length < rl.toNat then .error .truncated
      else .ok ({ name := join ls, rtype := t, rclass := k, ttl := tl, rdlength := rl,
                  rdata := d.take rl.toNat },
        p.length + (wireName ls).length + 10 + rl.toNat) := by
  have hn := nameDec_wireName p ls (bytes16 t ++ bytes16 k ++ bytes32 tl ++ bytes16 rl ++ d) h
  generalize hb : p ++ wireName ls ++ bytes16 t ++ bytes16 k ++ bytes32 tl ++ bytes16 rl ++ d = buf
  rw [show p ++ wireName ls ++ (bytes16 t ++ bytes16 k ++ bytes32 tl ++ bytes16 rl ++ d) = buf by
    rw [← hb]; simp] at hn
  generalize hc : p.length + (wireName ls).length = c at hn ⊢
  have e1 : memRead 16 buf c = .ok t :=
    memRead16_at (p := p ++ wireName ls)
      (t := bytes16 k ++ bytes32 tl ++ bytes16 rl ++ d) (by rw [← hb]; simp) (by simp [hc])
  have e2 : memRead 16 buf (c + 2) = .ok k :=
    memRead16_at (p := p ++ wireName ls ++ bytes16 t)
      (t := bytes32 tl ++ bytes16 rl ++ d) (by rw [← hb]; simp) (by simp [← hc]; omega)
  have e3 : memRead 32 buf (c + 4) = .ok tl :=
    memRead32_at (p := p ++ wireName ls ++ bytes16 t ++ bytes16 k)
      (t := bytes16 rl ++ d) (by rw [← hb]; simp) (by simp [← hc]; omega)
  have e4 : memRead 16 buf (c + 8) = .ok rl :=
    memRead16_at (p := p ++ wireName ls ++ bytes16 t ++ bytes16 k ++ bytes32 tl)
      (t := d) (by rw [← hb]; simp) (by simp [← hc]; omega)
  have hlen : buf.length = c + 10 + d.length := by rw [← hb, ← hc]; simp; omega
  have hdrop : buf.drop (c + 10) = d := by
    rw [← hb]
    exact List.drop_left' (by simp [← hc]; omega)
  rw [rrDec, hn]
  simp only [bind, Except.bind]
  rw [if_neg (by omega), e1, e2, e3, e4]
  dsimp only
  by_cases hd : d.length < rl.toNat
  · rw [if_pos hd, readBytes_error (by omega)]
  · rw [if_neg hd, readBytes_ok (by omega), hdrop]

/-- `rrDec` of a wire form, whatever stands before and after (44_resource_record.md R127). -/
theorem rrDec_wire (p : Bytes) (ls : List Bytes) (r : ResourceRecord) (t : Bytes) (h : labelsOk ls)
    (hn : r.name = join ls) (hd : r.rdata.length = r.rdlength.toNat) :
    rrDec (p ++ wireRecord ls r ++ t) p.length =
      .ok (r, p.length + (wireRecord ls r).length) := by
  have := rrDec_fixed p ls r.rtype r.rclass r.ttl r.rdlength (r.rdata ++ t) h
  rw [if_neg (by simp [← hd])] at this
  rw [show p ++ wireRecord ls r ++ t = p ++ wireName ls ++ bytes16 r.rtype ++ bytes16 r.rclass ++
    bytes32 r.ttl ++ bytes16 r.rdlength ++ (r.rdata ++ t) by simp [wireRecord], this]
  simp [wireRecord, ← hd, ← hn]
  omega

/-- Everything `rrDec` can do (44_resource_record.md R127). -/
theorem rrDec_cases (buf : Bytes) (off : Nat) :
    (∃ e, nameDec buf off = .error e ∧ rrDec buf off = .error e) ∨
    rrDec buf off = .error .truncated ∨
    (∃ p ls r t, labelsOk ls ∧ r.name = join ls ∧ r.rdata.length = r.rdlength.toNat ∧
      p.length = off ∧ buf = p ++ wireRecord ls r ++ t ∧
      rrDec buf off = .ok (r, off + (wireRecord ls r).length)) := by
  cases h : nameDec buf off with
  | error e => exact .inl ⟨e, rfl, rrDec_name_error h⟩
  | ok x =>
    obtain ⟨s, c⟩ := x
    obtain ⟨p, ls, t, hk, hs, hp, hc, hb⟩ := nameDec_ok h
    right
    rcases Nat.lt_or_ge buf.length (c + 10) with hl | hl
    · exact .inl (rrDec_short h hl)
    have h10 : 10 ≤ t.length := by
      have : buf.length = p.length + (wireName ls).length + t.length := by rw [hb]; simp; omega
      omega
    obtain ⟨ty, t, rfl⟩ := exists_bytes16 (t := t) (by omega)
    obtain ⟨k, t, rfl⟩ := exists_bytes16 (t := t) (by simp at h10; omega)
    obtain ⟨tl, t, rfl⟩ := exists_bytes32 (t := t) (by simp at h10; omega)
    obtain ⟨rl, t, rfl⟩ := exists_bytes16 (t := t) (by simp at h10; omega)
    have e := rrDec_fixed p ls ty k tl rl t hk
    rw [show p ++ wireName ls ++ bytes16 ty ++ bytes16 k ++ bytes32 tl ++ bytes16 rl ++ t = buf by
      rw [hb]; simp, hp] at e
    rcases Nat.lt_or_ge t.length rl.toNat with hd | hd
    · rw [if_pos hd] at e
      exact .inl e
    · rw [if_neg (by omega)] at e
      have hlen : (t.take rl.toNat).length = rl.toNat := by simp; omega
      have hw : buf = p ++ wireRecord ls
          { name := join ls, rtype := ty, rclass := k, ttl := tl, rdlength := rl,
            rdata := t.take rl.toNat } ++ t.drop rl.toNat := by
        rw [hb]; simp [wireRecord]
      refine .inr ⟨p, ls, _, t.drop rl.toNat, hk, rfl, hlen, hp, hw, ?_⟩
      rw [e]
      simp [wireRecord, hlen]
      omega

end Sys2Proof.Machine
end

