-- ==== Sys2Proof/Laws/Message.lean ====
section
/-! SUPPORT. What the message assembler does, said once (45_message.md). -/

namespace Sys2Proof.Machine

@[simp] theorem wireQuestions_cons (q : Question) (qs : List Question) :
    wireQuestions (q :: qs) =
      wireQuestion (nameLabels q.name) q.qtype q.qclass ++ wireQuestions qs := rfl

@[simp] theorem wireRecords_cons (r : ResourceRecord) (rs : List ResourceRecord) :
    wireRecords (r :: rs) = wireRecord (nameLabels r.name) r ++ wireRecords rs := rfl

/-- Everything `encodeQuestions` can do (45_message.md R135). -/
theorem encodeQuestions_cases (qs : List Question) :
    ((∀ q ∈ qs, questionOk q) ∧ encodeQuestions qs = .ok (wireQuestions qs)) ∨
    ((∃ q ∈ qs, ¬ questionOk q) ∧ encodeQuestions qs = .error .invalidLabel) := by
  induction qs with
  | nil => exact .inl ⟨by simp, rfl⟩
  | cons q qs ih =>
    by_cases h : questionOk q
    · rcases ih with ⟨hk, e⟩ | ⟨⟨x, hx, hn⟩, e⟩
      · exact .inl ⟨by simpa [h] using hk, by rw [encodeQuestions, qEnc_ok h, e]; rfl⟩
      · exact .inr ⟨⟨x, by simp [hx], hn⟩, by rw [encodeQuestions, qEnc_ok h, e]; rfl⟩
    · exact .inr ⟨⟨q, by simp, h⟩, by rw [encodeQuestions, qEnc_error h]; rfl⟩

theorem encodeQuestions_ok {qs : List Question} (h : ∀ q ∈ qs, questionOk q) :
    encodeQuestions qs = .ok (wireQuestions qs) := by
  rcases encodeQuestions_cases qs with ⟨_, e⟩ | ⟨⟨q, hq, hn⟩, _⟩
  · exact e
  · exact absurd (h q hq) hn

theorem encodeQuestions_error {qs : List Question} {q : Question} (hq : q ∈ qs)
    (h : ¬ questionOk q) : encodeQuestions qs = .error .invalidLabel := by
  rcases encodeQuestions_cases qs with ⟨hk, _⟩ | ⟨_, e⟩
  · exact absurd (hk q hq) h
  · exact e

theorem encodeRecords_ok {typeA : U16} {rs : List ResourceRecord} (h : ∀ r ∈ rs, recordOk typeA r) :
    encodeRecords typeA rs = .ok (wireRecords rs) := by
  induction rs with
  | nil => rfl
  | cons r rs ih =>
    rw [encodeRecords, rrEnc_ok (h r (by simp)), ih fun x hx => h x (by simp [hx])]
    rfl

/-- The first record that fails gives its error (45_message.md R142). -/
theorem encodeRecords_first_error {typeA : U16} {a : List ResourceRecord} {r : ResourceRecord}
    {b : List ResourceRecord} {e : ErrorKind} (h : ∀ x ∈ a, recordOk typeA x)
    (he : rrEnc typeA r = .error e) : encodeRecords typeA (a ++ r :: b) = .error e := by
  induction a with
  | nil => rw [List.nil_append, encodeRecords, he]; rfl
  | cons x a ih =>
    rw [List.cons_append, encodeRecords, rrEnc_ok (h x (by simp)),
      ih fun y hy => h y (by simp [hy])]
    rfl

/-- The kinds of error of `encodeRecords`, and its result when it has none. -/
theorem encodeRecords_cases (typeA : U16) (rs : List ResourceRecord) :
    ((∀ r ∈ rs, recordOk typeA r) ∧ encodeRecords typeA rs = .ok (wireRecords rs)) ∨
    encodeRecords typeA rs = .error .invalidLabel ∨
    encodeRecords typeA rs = .error .invalidRData := by
  induction rs with
  | nil => exact .inl ⟨by simp, rfl⟩
  | cons r rs ih =>
    rcases rrEnc_cases typeA r with ⟨_, e⟩ | ⟨_, _, e⟩ | ⟨h, e⟩
    · exact .inr (.inl (by rw [encodeRecords, e]; rfl))
    · exact .inr (.inr (by rw [encodeRecords, e]; rfl))
    · rcases ih with ⟨hk, e'⟩ | e' | e'
      · exact .inl ⟨by simpa [h] using hk, by rw [encodeRecords, e, e']; rfl⟩
      · exact .inr (.inl (by rw [encodeRecords, e, e']; rfl))
      · exact .inr (.inr (by rw [encodeRecords, e, e']; rfl))

/-- Everything `msgBuild` can do, with the errors' order left to the lemmas above (45_message.md
R135). -/
theorem msgBuild_cases (typeA : U16) (h : Header) (qs : List Question) (rs : List ResourceRecord) :
    ((∀ q ∈ qs, questionOk q) ∧ (∀ r ∈ rs, recordOk typeA r) ∧
      msgBuild typeA h qs rs = .ok (wireHeader h ++ wireQuestions qs ++ wireRecords rs)) ∨
    msgBuild typeA h qs rs = .error .invalidLabel ∨
    msgBuild typeA h qs rs = .error .invalidRData := by
  rcases encodeQuestions_cases qs with ⟨hq, eq⟩ | ⟨_, eq⟩
  · rcases encodeRecords_cases typeA rs with ⟨hr, er⟩ | er | er
    · exact .inl ⟨hq, hr, by rw [msgBuild, eq, er, ← hdrEnc_eq]; rfl⟩
    · exact .inr (.inl (by rw [msgBuild, eq, er]; rfl))
    · exact .inr (.inr (by rw [msgBuild, eq, er]; rfl))
  · exact .inr (.inl (by rw [msgBuild, eq]; rfl))

/-! ### Parsing -/

@[simp] theorem wireRaw_nil : wireRaw [] = [] := rfl

@[simp] theorem wireRaw_cons (x : RawQuestion) (xs : List RawQuestion) :
    wireRaw (x :: xs) = wireQuestion x.1 x.2.1 x.2.2 ++ wireRaw xs := rfl

/-- `parseQuestions` passes over whole questions (45_message.md R138). -/
theorem parseQuestions_raw (xs : List RawQuestion) (h : ∀ x ∈ xs, labelsOk x.1) (p t : Bytes)
    (n : Nat) :
    parseQuestions (p ++ (wireRaw xs ++ t)) (xs.length + n) p.length =
      (parseQuestions (p ++ (wireRaw xs ++ t)) n (p.length + (wireRaw xs).length)).map
        (xs.map RawQuestion.record ++ ·) := by
  induction xs generalizing p with
  | nil =>
    simp only [List.length_nil, Nat.zero_add, wireRaw_nil, Nat.add_zero, List.map_nil,
      List.nil_append]
    cases parseQuestions (p ++ t) n p.length <;> rfl
  | cons x xs ih =>
    have e := qDec_wire p x.1 x.2.1 x.2.2 (wireRaw xs ++ t) (h x (by simp))
    have r := ih (fun y hy => h y (by simp [hy])) (p ++ wireQuestion x.1 x.2.1 x.2.2)
    simp only [List.append_assoc, List.length_append] at e r
    simp only [List.length_cons, wireRaw_cons, List.append_assoc]
    rw [show xs.length + 1 + n = (xs.length + n) + 1 by omega, parseQuestions, e]
    simp only [bind, Except.bind]
    rw [r, List.length_append, Nat.add_assoc]
    cases parseQuestions (p ++ (wireQuestion x.1 x.2.1 x.2.2 ++ (wireRaw xs ++ t))) n
      (p.length + ((wireQuestion x.1 x.2.1 x.2.2).length + (wireRaw xs).length)) <;> rfl

theorem msgParse_short {buf : Bytes} (h : buf.length < 12) : msgParse buf = .error .truncated := by
  rw [msgParse, if_pos (by simpa [Config.hdrLen] using h)]

/-- `msgParse` after its header. -/
theorem msgParse_header (h : Header) (t : Bytes) :
    msgParse (wireHeader h ++ t) =
      (parseQuestions (wireHeader h ++ t) h.qdcount.toNat 12).map fun qs => (h, qs) := by
  rw [msgParse, if_neg (by simp [Config.hdrLen]), hdrDec_wireHeader]
  simp only [bind, Except.bind, Config.hdrLen]
  cases parseQuestions (wireHeader h ++ t) h.qdcount.toNat 12 <;> rfl

/-- `msgParse` of a header and exactly its questions, whatever follows (45_message.md R138,
R139). -/
theorem msgParse_raw (h : Header) (xs : List RawQuestion) (t : Bytes)
    (hk : ∀ x ∈ xs, labelsOk x.1) (hn : xs.length = h.qdcount.toNat) :
    msgParse (wireHeader h ++ wireRaw xs ++ t) = .ok (h, xs.map RawQuestion.record) := by
  have e := parseQuestions_raw xs hk (wireHeader h) t 0
  rw [Nat.add_zero, wireHeader_length] at e
  rw [List.append_assoc, msgParse_header, ← hn, e]
  simp [parseQuestions, Except.map]

/-- A successful chain of questions and the buffer around it. -/
theorem parseQuestions_ok {buf : Bytes} {n c : Nat} {qs : List Question}
    (h : parseQuestions buf n c = .ok qs) (hc : c ≤ buf.length) :
    ∃ p xs t, (∀ x ∈ xs, labelsOk x.1) ∧ xs.length = n ∧ p.length = c ∧
      buf = p ++ (wireRaw xs ++ t) ∧ qs = xs.map RawQuestion.record := by
  induction n generalizing c qs with
  | zero =>
    simp only [parseQuestions, Except.ok.injEq] at h
    exact ⟨buf.take c, [], buf.drop c, by simp, rfl, by simp [hc], by simp, by simp [← h]⟩
  | succ n ih =>
    rw [parseQuestions] at h
    cases hq : qDec buf c with
    | error e => rw [hq] at h; simp [bind, Except.bind] at h
    | ok r =>
      obtain ⟨q, c'⟩ := r
      obtain ⟨p, ls, qt, qc, t, hk, hp, hb, hqe, hce⟩ := qDec_ok hq
      have hc' : c' ≤ buf.length := by rw [hb, hce, ← hp]; simp
      rw [hq] at h
      simp only [bind, Except.bind] at h
      cases hr : parseQuestions buf n c' with
      | error e => rw [hr] at h; simp at h
      | ok rest =>
        rw [hr] at h
        simp only [Except.ok.injEq] at h
        obtain ⟨p', xs, t', hk', hn, hp', hb', hqs⟩ := ih hr hc'
        have hpp : p' = p ++ wireQuestion ls qt qc := by
          have h1 : buf.take c' = p' := by rw [hb', ← hp']; simp
          rw [← h1, hb, hce, ← hp]
          exact List.take_left' (by simp)
        refine ⟨p, (ls, qt, qc) :: xs, t', ?_, by simp [hn], hp, ?_, ?_⟩
        · intro x hx
          rcases List.mem_cons.mp hx with rfl | hx
          · exact hk
          · exact hk' x hx
        · rw [hb', hpp]; simp
        · rw [← h, hqs, hqe]; rfl

/-- The errors of the question decoder. -/
theorem qDec_error_kind {buf : Bytes} {off : Nat} {e : ErrorKind} (h : qDec buf off = .error e) :
    e = .truncated ∨ e = .invalidLabel ∨ e = .unsupportedCompression := by
  rcases qDec_cases buf off with ⟨e', hn, he⟩ | ⟨_, _, _, _, he⟩ | ⟨_, _, _, _, _, _, _, _, he⟩
  · rw [he] at h
    simp only [Except.error.injEq] at h
    exact h ▸ nameDecLoop_error hn
  · rw [he] at h
    simp only [Except.error.injEq] at h
    exact .inl h.symm
  · rw [he] at h; simp at h

theorem parseQuestions_error_kind {buf : Bytes} {n c : Nat} {e : ErrorKind}
    (h : parseQuestions buf n c = .error e) :
    e = .truncated ∨ e = .invalidLabel ∨ e = .unsupportedCompression := by
  induction n generalizing c with
  | zero => simp [parseQuestions] at h
  | succ n ih =>
    rw [parseQuestions] at h
    cases hq : qDec buf c with
    | error e' =>
      rw [hq] at h
      simp only [bind, Except.bind, Except.error.injEq] at h
      exact h ▸ qDec_error_kind hq
    | ok r =>
      rw [hq] at h
      simp only [bind, Except.bind] at h
      cases hr : parseQuestions buf n r.2 with
      | error e' =>
        rw [hr] at h
        simp only [Except.error.injEq] at h
        exact ih (h ▸ hr)
      | ok rest => rw [hr] at h; simp at h

/-- Everything `msgParse` can do (45_message.md R138). -/
theorem msgParse_cases (buf : Bytes) :
    (∃ h xs t, (∀ x ∈ xs, labelsOk x.1) ∧ xs.length = h.qdcount.toNat ∧
      buf = wireHeader h ++ wireRaw xs ++ t ∧
      msgParse buf = .ok (h, xs.map RawQuestion.record)) ∨
    (∃ e, msgParse buf = .error e ∧
      (e = .truncated ∨ e = .invalidLabel ∨ e = .unsupportedCompression)) := by
  rcases hdrDec_cases buf with ⟨hl, _⟩ | ⟨h, t, rfl, _⟩
  · exact .inr ⟨_, msgParse_short hl, .inl rfl⟩
  · cases hq : parseQuestions (wireHeader h ++ t) h.qdcount.toNat 12 with
    | error e =>
      exact .inr ⟨e, by rw [msgParse_header, hq]; rfl, parseQuestions_error_kind hq⟩
    | ok qs =>
      obtain ⟨p, xs, t', hk, hn, hp, hb, _⟩ := parseQuestions_ok hq (by simp)
      have hpp : p = wireHeader h := (List.append_inj hb (by simp [hp])).1.symm
      subst hpp
      rw [← List.append_assoc] at hb
      exact .inl ⟨h, xs, t', hk, hn, hb, by rw [hb]; exact msgParse_raw h xs t' hk hn⟩

end Sys2Proof.Machine
end

