-- ==== Sys2Proof/Laws/Exec.lean ====
section
/-! SUPPORT. What an operation can do, said once: its response, and when it has one. -/

namespace Sys2Proof.Machine

/-- What a successful response of operation `i` is (30_encoding.md R67, 10_state.md R29), with
the content facts of R36 and R26. -/
structure OkFor (i : Instr) (r : Rsp) : Prop where
  status : r.status = some .ok
  possible : Status.ok ∈ statusesOf i
  exact : r.holdsExactly (writesOf i)
  counts : ∀ h qs, r.h = some h → r.qlist = some qs → qs.length = h.qdcount.toNat
  lengths : ∀ x, r.rr = some x → x.rdlength.toNat = x.rdata.length

/-- What a response of operation `i` is (60_exceptions.md R157 to R159). -/
def ResponseOf (i : Instr) (r : Rsp) : Prop :=
  (∃ e, r = failed e ∧ Status.error e ∈ statusesOf i) ∨ OkFor i r

/-- An encoder's success. -/
theorem okFor_output {i : Instr} (b : Bytes) (hp : Status.ok ∈ statusesOf i)
    (hw : writesOf i = [.obuf]) : OkFor i (okOutput b) := by
  refine ⟨rfl, hp, ?_, by simp, by simp⟩
  intro f hf
  rw [hw]
  simp only [resultFields, List.mem_cons, List.not_mem_nil, or_false] at hf
  rcases hf with rfl | rfl | rfl | rfl | rfl | rfl | rfl <;> rfl

/-- Checks `holdsExactly` field by field. -/
theorem holdsExactly_of {r : Rsp} {fs : List RspField}
    (h : resultFields.all (fun f => rspHolds r f == fs.contains f) = true) :
    r.holdsExactly fs := by
  intro f hf
  simpa using List.all_eq_true.mp h f hf

theorem nameDec_error {buf : Bytes} {off : Nat} {e : ErrorKind} (h : nameDec buf off = .error e) :
    e = .truncated ∨ e = .invalidLabel ∨ e = .unsupportedCompression := nameDecLoop_error h

theorem rrDec_error_kind {buf : Bytes} {off : Nat} {e : ErrorKind} (h : rrDec buf off = .error e) :
    e = .truncated ∨ e = .invalidLabel ∨ e = .unsupportedCompression := by
  rcases rrDec_cases buf off with ⟨e', hn, he⟩ | he | ⟨_, _, _, _, _, _, _, _, _, he⟩
  · rw [he] at h
    simp only [Except.error.injEq] at h
    exact h ▸ nameDec_error hn
  · rw [he] at h
    simp only [Except.error.injEq] at h
    exact .inl h.symm
  · rw [he] at h; simp at h

/-- The decoders' errors are in the table's row. -/
theorem decoder_error_mem {e : ErrorKind}
    (h : e = .truncated ∨ e = .invalidLabel ∨ e = .unsupportedCompression) :
    Status.error e ∈ [Status.ok, .error .truncated, .error .invalidLabel,
      .error .unsupportedCompression] := by
  rcases h with rfl | rfl | rfl <;> simp

/-! ### Each operation on its operands -/

theorem exec_hdrEnc {s : State} {h : Header} (e : s.req.h = some h) :
    exec .hdrEnc s = .next (s.answered (okOutput (wireHeader h))) := by
  simp only [exec, execHdrEnc, withHeader, e, operand_some]
  exact conclude_encoded_ok (congrArg _ (hdrEnc_eq h)) s

theorem exec_hdrDec {s : State} {buf : Bytes} (e : s.req.ibuf = some buf) :
    exec .hdrDec s = conclude ((hdrDec buf).map fun h => { Rsp.blank with h := some h }) s := by
  simp only [exec, execHdrDec, withBuffer, e, operand_some]

theorem exec_nameEnc {s : State} {n : Bytes} (e : s.req.name = some n) :
    exec .nameEnc s = conclude (encoded (nameEnc n)) s := by
  simp only [exec, execNameEnc, withName, e, operand_some]

theorem exec_nameDec {s : State} {buf : Bytes} {off : Nat} (e : s.req.ibuf = some buf)
    (o : s.req.off = some off) :
    exec .nameDec s = conclude ((nameDec buf off).map fun r =>
      { Rsp.blank with name := some r.1, newoff := some r.2 }) s := by
  simp only [exec, execNameDec, withBufferAt, e, o, operand_some]

theorem exec_qEnc {s : State} {q : Question} (e : s.req.q = some q) :
    exec .qEnc s = conclude (encoded (qEnc q)) s := by
  simp only [exec, execQEnc, withQuestion, e, operand_some]

theorem exec_qDec {s : State} {buf : Bytes} {off : Nat} (e : s.req.ibuf = some buf)
    (o : s.req.off = some off) :
    exec .qDec s = conclude ((qDec buf off).map fun r =>
      { Rsp.blank with q := some r.1, newoff := some r.2 }) s := by
  simp only [exec, execQDec, withBufferAt, e, o, operand_some]

theorem execRrEncAt_eq (typeA : U16) {s : State} {r : ResourceRecord} (e : s.req.rr = some r) :
    execRrEncAt typeA s = conclude (encoded (rrEnc typeA r)) s := by
  simp only [execRrEncAt, withRecord, e, operand_some]

theorem exec_rrEnc {s : State} {r : ResourceRecord} (e : s.req.rr = some r) :
    exec .rrEnc s = conclude (encoded (rrEnc Config.typeA r)) s := execRrEncAt_eq _ e

theorem exec_rrDec {s : State} {buf : Bytes} {off : Nat} (e : s.req.ibuf = some buf)
    (o : s.req.off = some off) :
    exec .rrDec s = conclude ((rrDec buf off).map fun r =>
      { Rsp.blank with rr := some r.1, newoff := some r.2 }) s := by
  simp only [exec, execRrDec, withBufferAt, e, o, operand_some]

theorem execMsgBuildAt_eq (typeA : U16) {s : State} {h : Header} {qs : List Question}
    {rs : List ResourceRecord} (eh : s.req.h = some h) (eq : s.req.qlist = some qs)
    (er : s.req.rrlist = some rs) :
    execMsgBuildAt typeA s = conclude (encoded (msgBuild typeA h qs rs)) s := by
  simp only [execMsgBuildAt, withMessage, eh, eq, er, operand_some]

theorem exec_msgBuild {s : State} {h : Header} {qs : List Question} {rs : List ResourceRecord}
    (eh : s.req.h = some h) (eq : s.req.qlist = some qs) (er : s.req.rrlist = some rs) :
    exec .msgBuild s = conclude (encoded (msgBuild Config.typeA h qs rs)) s :=
  execMsgBuildAt_eq _ eh eq er

theorem exec_msgParse {s : State} {buf : Bytes} (e : s.req.ibuf = some buf) :
    exec .msgParse s = conclude ((msgParse buf).map fun r =>
      { Rsp.blank with h := some r.1, qlist := some r.2 }) s := by
  simp only [exec, execMsgParse, withBuffer, e, operand_some]

/-! ### The inversion of `exec` -/

/-- An encoder's response. -/
theorem encoder_response {i : Instr} {r : Codec Bytes} {s : State}
    (hp : Status.ok ∈ statusesOf i) (hw : writesOf i = [.obuf])
    (he : ∀ e, r = .error e → Status.error e ∈ statusesOf i) :
    ∃ a, conclude (encoded r) s = .next (s.answered a) ∧ ResponseOf i a := by
  cases hr : r with
  | ok b => exact ⟨okOutput b, conclude_encoded_ok rfl s, .inr (okFor_output b hp hw)⟩
  | error e => exact ⟨failed e, conclude_encoded_error rfl s, .inl ⟨e, rfl, he e hr⟩⟩

/-- A decoder's response. -/
theorem decoder_response {α : Type} {i : Instr} {r : Codec α} {f : α → Rsp} {s : State}
    (hok : ∀ a, r = .ok a → OkFor i { f a with status := some .ok })
    (he : ∀ e, r = .error e → Status.error e ∈ statusesOf i) :
    ∃ a, conclude (r.map f) s = .next (s.answered a) ∧ ResponseOf i a := by
  cases hr : r with
  | ok a => exact ⟨_, conclude_map_ok rfl f s, .inr (hok a hr)⟩
  | error e => exact ⟨failed e, conclude_map_error rfl f s, .inl ⟨e, rfl, he e hr⟩⟩

/-- Whether the operands of an operation hold values. -/
def operandsHeld (i : Instr) (r : Req) : Prop :=
  ∀ f ∈ readsOf (formatOf i), f ≠ .op → reqHolds r f = true

theorem held {α : Type} {o : Option α} (h : o.isSome = true) : ∃ a, o = some a :=
  Option.isSome_iff_exists.mp h

/-- RR_ENC answers a record at every `TYPE_A`. -/
theorem execRrEncAt_response (typeA : U16) {s : State} (h : operandsHeld .rrEnc s.req) :
    ∃ a, execRrEncAt typeA s = .next (s.answered a) ∧ ResponseOf .rrEnc a := by
  obtain ⟨r, e⟩ := held (h .rr (by decide) (by decide))
  rw [execRrEncAt_eq typeA e]
  refine encoder_response (by decide) rfl fun k hk => ?_
  rcases rrEnc_cases typeA r with ⟨_, he⟩ | ⟨_, _, he⟩ | ⟨_, he⟩ <;> rw [he] at hk <;>
    simp at hk <;> subst hk <;> decide

/-- MSG_BUILD answers a message at every `TYPE_A`. -/
theorem execMsgBuildAt_response (typeA : U16) {s : State} (h : operandsHeld .msgBuild s.req) :
    ∃ a, execMsgBuildAt typeA s = .next (s.answered a) ∧ ResponseOf .msgBuild a := by
  obtain ⟨hd, eh⟩ := held (h .h (by decide) (by decide))
  obtain ⟨qs, eq⟩ := held (h .qlist (by decide) (by decide))
  obtain ⟨rs, er⟩ := held (h .rrlist (by decide) (by decide))
  rw [execMsgBuildAt_eq typeA eh eq er]
  refine encoder_response (by decide) rfl fun k hk => ?_
  rcases msgBuild_cases typeA hd qs rs with ⟨_, _, he⟩ | he | he <;> rw [he] at hk <;>
    simp at hk <;> subst hk <;> decide

/-- An operation whose operands hold values answers a next state with a response of its own. -/
theorem exec_response {i : Instr} {s : State} (h : operandsHeld i s.req) :
    ∃ r, exec i s = .next (s.answered r) ∧ ResponseOf i r := by
  cases i with
  | hdrEnc =>
    obtain ⟨a, e⟩ := held (h .h (by decide) (by decide))
    exact ⟨_, exec_hdrEnc e, .inr (okFor_output _ (by decide) rfl)⟩
  | hdrDec =>
    obtain ⟨buf, e⟩ := held (h .ibuf (by decide) (by decide))
    rw [exec_hdrDec e]
    refine decoder_response (fun a _ => ⟨rfl, by decide, holdsExactly_of rfl, by simp, by simp⟩) ?_
    intro k hk
    rcases hdrDec_cases buf with ⟨_, he⟩ | ⟨_, _, _, he⟩
    · rw [he] at hk
      simp only [Except.error.injEq] at hk
      subst hk; decide
    · rw [he] at hk; simp at hk
  | nameEnc =>
    obtain ⟨n, e⟩ := held (h .name (by decide) (by decide))
    rw [exec_nameEnc e]
    refine encoder_response (by decide) rfl fun k hk => ?_
    rcases nameEnc_eq n with ⟨_, he⟩ | ⟨_, he⟩ <;> rw [he] at hk <;> simp at hk
    subst hk; decide
  | nameDec =>
    obtain ⟨buf, e⟩ := held (h .ibuf (by decide) (by decide))
    obtain ⟨off, o⟩ := held (h .off (by decide) (by decide))
    rw [exec_nameDec e o]
    exact decoder_response (fun a _ => ⟨rfl, by decide, holdsExactly_of rfl, by simp, by simp⟩)
      fun k hk => decoder_error_mem (nameDec_error hk)
  | qEnc =>
    obtain ⟨q, e⟩ := held (h .q (by decide) (by decide))
    rw [exec_qEnc e]
    refine encoder_response (by decide) rfl fun k hk => ?_
    by_cases hq : questionOk q
    · rw [qEnc_ok hq] at hk; simp at hk
    · rw [qEnc_error hq] at hk
      simp only [Except.error.injEq] at hk
      subst hk; decide
  | qDec =>
    obtain ⟨buf, e⟩ := held (h .ibuf (by decide) (by decide))
    obtain ⟨off, o⟩ := held (h .off (by decide) (by decide))
    rw [exec_qDec e o]
    exact decoder_response (fun a _ => ⟨rfl, by decide, holdsExactly_of rfl, by simp, by simp⟩)
      fun k hk => decoder_error_mem (qDec_error_kind hk)
  | rrEnc => exact execRrEncAt_response _ h
  | rrDec =>
    obtain ⟨buf, e⟩ := held (h .ibuf (by decide) (by decide))
    obtain ⟨off, o⟩ := held (h .off (by decide) (by decide))
    rw [exec_rrDec e o]
    refine decoder_response (fun a ha => ⟨rfl, by decide, holdsExactly_of rfl, by simp, ?_⟩)
      fun k hk => decoder_error_mem (rrDec_error_kind hk)
    intro x hx
    rcases rrDec_cases buf off with ⟨_, _, he⟩ | he | ⟨_, _, r, _, _, _, hd, _, _, he⟩
    · rw [he] at ha; simp at ha
    · rw [he] at ha; simp at ha
    · rw [he] at ha
      simp only [Except.ok.injEq] at ha
      simp only [← ha, Option.some.injEq] at hx
      rw [← hx, hd]
  | msgBuild => exact execMsgBuildAt_response _ h
  | msgParse =>
    obtain ⟨buf, e⟩ := held (h .ibuf (by decide) (by decide))
    rw [exec_msgParse e]
    refine decoder_response (fun a ha => ⟨rfl, by decide, holdsExactly_of rfl, ?_, by simp⟩) ?_
    · intro hd qs hh hq
      rcases msgParse_cases buf with ⟨h', xs, _, _, hn, _, he⟩ | ⟨_, he, _⟩
      · rw [he] at ha
        simp only [Except.ok.injEq] at ha
        simp only [← ha, Option.some.injEq] at hh hq
        rw [← hh, ← hq, List.length_map, hn]
      · rw [he] at ha; simp at ha
    · intro k hk
      rcases msgParse_cases buf with ⟨_, _, _, _, _, _, he⟩ | ⟨k', he, hm⟩
      · rw [he] at hk; simp at hk
      · rw [he] at hk
        simp only [Except.error.injEq] at hk
        exact decoder_error_mem (hk ▸ hm)
  | reservedAB op => exact ⟨_, rfl, .inl ⟨_, rfl, by simp [statusesOf]⟩⟩
  | reservedCF op => exact ⟨_, rfl, .inl ⟨_, rfl, by simp [statusesOf]⟩⟩

/-- An operation that lacks an operand is refused (10_state.md R41; log entry 5). -/
theorem exec_incomplete {i : Instr} {s : State} (h : ¬ operandsHeld i s.req) :
    exec i s = .refused .incompleteRequest := by
  simp only [operandsHeld, not_forall] at h
  obtain ⟨f, hf, hne, hh⟩ := h
  rw [Bool.not_eq_true] at hh
  cases i <;> simp only [formatOf, readsOf, List.mem_cons, List.not_mem_nil, or_false] at hf
  all_goals
    first
    | exact absurd hf hne
    | rcases hf with rfl | rfl | rfl | rfl <;> first
        | exact absurd rfl hne
        | (simp only [reqHolds, Option.isSome_eq_false_iff, Option.isNone_iff_eq_none] at hh
           simp only [exec, execHdrEnc, execHdrDec, execNameEnc, execNameDec, execQEnc, execQDec,
             execRrEnc, execRrEncAt, execRrDec, execMsgBuild, execMsgBuildAt, execMsgParse,
             withHeader, withBuffer, withName, withBufferAt, withQuestion, withRecord, withMessage,
             hh, operand_none]
           try (cases s.req.h <;> cases s.req.ibuf <;> try cases s.req.qlist) <;> rfl)

/-- Everything `exec` can do: a next state with a response of the operation, or the refusal of a
request that lacks an operand. -/
theorem exec_cases (i : Instr) (s : State) :
    (operandsHeld i s.req ∧ ∃ r, exec i s = .next (s.answered r) ∧ ResponseOf i r) ∨
    (¬ operandsHeld i s.req ∧ exec i s = .refused .incompleteRequest) := by
  by_cases h : operandsHeld i s.req
  · exact .inl ⟨h, exec_response h⟩
  · exact .inr ⟨h, exec_incomplete h⟩

/-! ### Blocks of any `TYPE_A` -/

/-- `exec` is the operation at the default `TYPE_A`. -/
theorem execAt_default (i : Instr) (s : State) : execAt Config.typeA i s = exec i s := by
  cases i <;> rfl

/-- An operation whose operands hold values answers at every `TYPE_A`. -/
theorem execAt_response (typeA : U16) {i : Instr} {s : State} (h : operandsHeld i s.req) :
    ∃ r, execAt typeA i s = .next (s.answered r) ∧ ResponseOf i r := by
  cases i with
  | rrEnc => exact execRrEncAt_response typeA h
  | msgBuild => exact execMsgBuildAt_response typeA h
  | _ => exact exec_response h

/-- The refusal of a request that lacks an operand does not depend on `TYPE_A`. -/
theorem execAt_incomplete (typeA : U16) {i : Instr} {s : State} (h : ¬ operandsHeld i s.req) :
    execAt typeA i s = .refused .incompleteRequest := by
  have hx := exec_incomplete h
  cases i with
  | rrEnc =>
    cases e : s.req.rr with
    | none => simp only [execAt, execRrEncAt, withRecord, e, operand_none]
    | some r =>
      rw [exec_rrEnc e] at hx
      cases hr : rrEnc Config.typeA r <;> rw [hr] at hx <;> cases hx
  | msgBuild =>
    simp only [exec, execMsgBuild, execMsgBuildAt, withMessage] at hx
    simp only [execAt, execMsgBuildAt, withMessage]
    cases eh : s.req.h with
    | none => rfl
    | some hd =>
      cases eq : s.req.qlist with
      | none => rfl
      | some qs =>
        cases er : s.req.rrlist with
        | none => rfl
        | some rs =>
          rw [eh, eq, er] at hx
          simp only [operand_some] at hx
          cases hr : msgBuild Config.typeA hd qs rs <;> rw [hr] at hx <;> cases hx
  | _ => exact hx

/-- A next state of an operation at any `TYPE_A`. -/
theorem execAt_next {typeA : U16} {i : Instr} {s t : State} (h : execAt typeA i s = .next t) :
    ∃ r, t = s.answered r ∧ ResponseOf i r := by
  by_cases ho : operandsHeld i s.req
  · obtain ⟨r, e, hr⟩ := execAt_response typeA ho
    rw [e] at h
    simp only [Host.Outcome.next.injEq] at h
    exact ⟨r, h.symm, hr⟩
  · rw [execAt_incomplete typeA ho] at h; simp at h

/-- A next state of `exec`: the state before with another response. -/
theorem exec_next {i : Instr} {s t : State} (h : exec i s = .next t) :
    ∃ r, t = s.answered r ∧ ResponseOf i r := by
  rcases exec_cases i s with ⟨_, r, e, hr⟩ | ⟨_, e⟩
  · rw [e] at h
    simp only [Host.Outcome.next.injEq] at h
    exact ⟨r, h.symm, hr⟩
  · rw [e] at h; simp at h

end Sys2Proof.Machine
end

