-- ==== Sys2Proof/Laws/PerInstr.lean ====
section
/-! SUPPORT. The family EncodeDecode of LAWS.json: for each operation, its code decodes to it. -/

namespace Sys2Proof.Laws.EncodeDecode

/-- The code of a well-formed operation selects it (30_encoding.md R66). -/
def Statement (i : Instr) : Prop := i.wellFormed = true → decodeOp (encode i) = i

theorem hdrEnc : Statement .hdrEnc := fun _ => rfl
theorem hdrDec : Statement .hdrDec := fun _ => rfl
theorem nameEnc : Statement .nameEnc := fun _ => rfl
theorem nameDec : Statement .nameDec := fun _ => rfl
theorem qEnc : Statement .qEnc := fun _ => rfl
theorem qDec : Statement .qDec := fun _ => rfl
theorem rrEnc : Statement .rrEnc := fun _ => rfl
theorem rrDec : Statement .rrDec := fun _ => rfl
theorem msgBuild : Statement .msgBuild := fun _ => rfl
theorem msgParse : Statement .msgParse := fun _ => rfl
theorem reservedAB (op : U4) : Statement (.reservedAB op) := by
  unfold Statement; revert op; decide
theorem reservedCF (op : U4) : Statement (.reservedCF op) := by
  unfold Statement; revert op; decide

end Sys2Proof.Laws.EncodeDecode
end

