-- ==== Sys2Proof/Laws/Step.lean ====
section
/-! SUPPORT. What a step can do, said once, and the capacity tests of a block's ports. -/

namespace Sys2Proof.Machine

@[simp] theorem unbounded_within (n : Nat) : within none n = true := rfl
@[simp] theorem unbounded_cursor (off : Nat) : cursorFits none off = true := rfl

theorem within_iff (cap : Option Nat) (n : Nat) : within cap n = true ↔ ¬ exceeds cap n := by
  cases cap with
  | none => simp [within, exceeds]
  | some c => simp [within, exceeds]

theorem ifHeld_iff {α : Type} (o : Option α) (t : α → Bool) :
    ifHeld o t = true ↔ ∀ a, o = some a → t a = true := by
  cases o with
  | none => simp [ifHeld]
  | some a => simp [ifHeld]

/-- The unbounded ports take every request and every output (00_scope.md R6). -/
theorem requestFits_ports (r : Req) : requestFits Config.block.ports r = true := by
  simp only [requestFits, Bool.and_eq_true, ifHeld_iff]
  simp [Config.block, Ports.unbounded, questionFits, recordFits]

theorem outputFits_ports (r : Rsp) : outputFits Config.block.ports r = true := by
  simp [outputFits, ifHeld_iff, Config.block, Ports.unbounded]

theorem boundOutput_ports (r : Result) : boundOutput Config.block.ports r = r := by
  cases r with
  | next t => simp [boundOutput, outputFits_ports]
  | fault f => rfl
  | refused x => rfl

/-- Everything a step can do (10_state.md R20). -/
theorem step_cases (s : State) :
    (s.running = false ∧ step s = .next s) ∨
    (s.running = true ∧ s.req.op = none ∧ step s = .refused .incompleteRequest) ∨
    (∃ w, s.running = true ∧ s.req.op = some w ∧ step s = exec (decodeOp w) s) := by
  cases hr : s.running with
  | false => exact .inl ⟨rfl, by simp [step, stepWithin, hr]⟩
  | true =>
    cases ho : s.req.op with
    | none => exact .inr (.inl ⟨rfl, rfl, by simp [step, stepWithin, hr, fetch, ho]⟩)
    | some w =>
      refine .inr (.inr ⟨w, rfl, rfl, ?_⟩)
      simp only [step, stepWithin, hr, fetch, ho, Option.map_some, requestFits_ports, if_true,
        boundOutput_ports]
      exact execAt_default _ _

/-- What bounding an output can answer (45_message.md R141). -/
theorem boundOutput_next {p : Ports} {r : Result} {t : State} (h : boundOutput p r = .next t) :
    r = .next t ∧ outputFits p t.rsp = true := by
  cases r with
  | next u =>
    simp only [boundOutput] at h
    split at h
    · next hu => simp only [Host.Outcome.next.injEq] at h; subst h; exact ⟨rfl, hu⟩
    · simp at h
  | fault f => simp [boundOutput] at h
  | refused x => simp [boundOutput] at h

/-- A next state of a step, whatever the parameters of the block: it waits, or it answers a
request that its ports take, within its output port. -/
theorem stepWithin_next {b : Block} {s t : State} (h : stepWithin b s = .next t) :
    (s.running = false ∧ t = s) ∨
    (∃ w, s.running = true ∧ s.req.op = some w ∧ requestFits b.ports s.req = true ∧
      execAt b.typeA (decodeOp w) s = .next t ∧ outputFits b.ports t.rsp = true) := by
  cases hr : s.running with
  | false =>
    simp only [stepWithin, hr, Host.Outcome.next.injEq] at h
    exact .inl ⟨rfl, h.symm⟩
  | true =>
    cases ho : s.req.op with
    | none => simp [stepWithin, hr, fetch, ho] at h
    | some w =>
      simp only [stepWithin, hr, fetch, ho, Option.map_some] at h
      split at h
      · next hf =>
        obtain ⟨hx, hb⟩ := boundOutput_next h
        exact .inr ⟨w, rfl, rfl, hf, hx, hb⟩
      · simp at h

/-- A complete request is one whose operation has its operands (10_state.md R41). -/
theorem requestComplete_iff (r : Req) :
    requestComplete r = true ↔ ∃ w, r.op = some w ∧ operandsHeld (decodeOp w) r := by
  cases ho : r.op with
  | none => simp [requestComplete, ho]
  | some w =>
    simp only [requestComplete, ho, List.all_eq_true, Option.some.injEq, exists_eq_left',
      operandsHeld]
    constructor
    · exact fun h f hf _ => h f hf
    · intro h f hf
      by_cases hop : f = .op
      · subst hop; simp [reqHolds, ho]
      · exact h f hf hop

/-- A host's placing of an operation makes a complete request (log entry 11). -/
theorem requestComplete_placeOp (w : U4) (r : Req) : requestComplete (placeOp w r) = true := by
  rw [requestComplete_iff]
  refine ⟨w, rfl, fun f hf hne => ?_⟩
  have hc : (readsOf (formatOf (decodeOp w))).contains f = true := by simpa using hf
  cases f with
  | op => exact absurd rfl hne
  | h => simp only [reqHolds, placeOp, fillField, hc]; cases r.h <;> rfl
  | name => simp only [reqHolds, placeOp, fillField, hc]; cases r.name <;> rfl
  | q => simp only [reqHolds, placeOp, fillField, hc]; cases r.q <;> rfl
  | rr => simp only [reqHolds, placeOp, fillField, hc]; cases r.rr <;> rfl
  | qlist => simp only [reqHolds, placeOp, fillField, hc]; cases r.qlist <;> rfl
  | rrlist => simp only [reqHolds, placeOp, fillField, hc]; cases r.rrlist <;> rfl
  | ibuf => simp only [reqHolds, placeOp, fillField, hc]; cases r.ibuf <;> rfl
  | off => simp only [reqHolds, placeOp, fillField, hc]; cases r.off <;> rfl

end Sys2Proof.Machine
end

