-- ==== Sys2Proof/Tests/Slice0.lean ====
section
/-! SUPPORT. The model's own tests. Expected values come from spec/95_test_vectors.md (V1 to V9,
T1 to T92, the programs P1 to P5) and from the tables of spec/30_encoding.md and
spec/opcode_table.json; each test names its source. The witnesses at the end meet the hypotheses
of the obligations. -/

namespace Sys2Proof.Tests

open Sys2Proof Sys2Proof.Machine

/-- A byte sequence written as numbers. -/
def bs (l : List Nat) : Bytes := l.map (BitVec.ofNat 8)

/-- A block right after a host has started the transaction of `r`. -/
def started (r : Req) : State := { req := r, rsp := Rsp.blank, running := true }

/-- The request with a buffer. -/
def inBuf (b : List Nat) : Req := { blankReq with ibuf := some (bs b) }

/-- The request with a buffer and an offset. -/
def inAt (b : List Nat) (off : Nat) : Req := { blankReq with ibuf := some (bs b), off := some off }

/-- The request with a name. -/
def inName (n : List Nat) : Req := { blankReq with name := some (bs n) }

/-- The response of operation `i` to the request `r`. -/
def answer (i : Instr) (r : Req) : Option Rsp :=
  match exec i (started r) with
  | .next t => some t.rsp
  | .fault _ => none
  | .refused _ => none

/-- An error response. -/
def err (e : ErrorKind) : Option Rsp := some (failed e)

/-- "abc.example". -/
def abcExample : List Nat := [0x61, 0x62, 0x63, 0x2E, 0x65, 0x78, 0x61, 0x6D, 0x70, 0x6C, 0x65]

/-- The wire form of "abc.example" (V2). -/
def abcExampleWire : List Nat :=
  [0x03, 0x61, 0x62, 0x63, 0x07, 0x65, 0x78, 0x61, 0x6D, 0x70, 0x6C, 0x65, 0x00]

/-- The name and the record of T60. -/
def codecrafters : List Nat :=
  [0x63, 0x6F, 0x64, 0x65, 0x63, 0x72, 0x61, 0x66, 0x74, 0x65, 0x72, 0x73, 0x2E, 0x69, 0x6F]

def answerRecord : ResourceRecord :=
  { name := bs codecrafters, rtype := 1, rclass := 1, ttl := 60, rdlength := 4,
    rdata := bs [8, 8, 8, 8] }

/-- T60's OBUF. -/
def answerWire : List Nat :=
  [0x0C, 0x63, 0x6F, 0x64, 0x65, 0x63, 0x72, 0x61, 0x66, 0x74, 0x65, 0x72, 0x73, 0x02, 0x69, 0x6F,
   0x00, 0x00, 0x01, 0x00, 0x01, 0x00, 0x00, 0x00, 0x3C, 0x00, 0x04, 0x08, 0x08, 0x08, 0x08]

/-- The question of P2 on the wire. -/
def questionWire : List Nat :=
  [0x0C, 0x63, 0x6F, 0x64, 0x65, 0x63, 0x72, 0x61, 0x66, 0x74, 0x65, 0x72, 0x73, 0x02, 0x69, 0x6F,
   0x00, 0x00, 0x01, 0x00, 0x01]

/-- A record whose only odd part is said at its use. -/
def recordX (rtype rdlength : Nat) (d : List Nat) : ResourceRecord :=
  { name := bs [0x78], rtype := BitVec.ofNat 16 rtype, rclass := 1, ttl := 60,
    rdlength := BitVec.ofNat 16 rdlength, rdata := bs d }

/-! ### Decoding: spec/opcode_table.json and 30_encoding.md R66, bits written out -/

/-- 0000 to 1001 select the ten operations. -/
theorem test_decode_operations :
    decodeOp 0b0000 = .hdrEnc ∧ decodeOp 0b0001 = .hdrDec ∧ decodeOp 0b0010 = .nameEnc ∧
    decodeOp 0b0011 = .nameDec ∧ decodeOp 0b0100 = .qEnc ∧ decodeOp 0b0101 = .qDec ∧
    decodeOp 0b0110 = .rrEnc ∧ decodeOp 0b0111 = .rrDec ∧ decodeOp 0b1000 = .msgBuild ∧
    decodeOp 0b1001 = .msgParse := by decide

/-- 101x is RESERVED_A_B and 11xx is RESERVED_C_F. -/
theorem test_decode_reserved :
    decodeOp 0b1010 = .reservedAB 0b1010 ∧ decodeOp 0b1011 = .reservedAB 0b1011 ∧
    decodeOp 0b1100 = .reservedCF 0b1100 ∧ decodeOp 0b1101 = .reservedCF 0b1101 ∧
    decodeOp 0b1110 = .reservedCF 0b1110 ∧ decodeOp 0b1111 = .reservedCF 0b1111 := by decide

/-- The rows of the table as (mask, match). -/
def tableRows : List (U4 × U4) :=
  [(0xF, 0x0), (0xF, 0x1), (0xF, 0x2), (0xF, 0x3), (0xF, 0x4), (0xF, 0x5), (0xF, 0x6), (0xF, 0x7),
   (0xF, 0x8), (0xF, 0x9), (0xE, 0xA), (0xC, 0xC)]

/-- "Every 4-bit value selects exactly one row" (R66). -/
theorem test_rows_do_not_overlap :
    ∀ w : U4, (tableRows.filter fun r => w &&& r.1 == r.2).length = 1 := by decide

/-- The table word of each row, and a wider word by its low four bits. -/
theorem test_decode_table_word :
    decodeTableWord 8 0x06 = some .rrEnc ∧ decodeTableWord 8 0x0A = some (.reservedAB 0xA) ∧
    decodeTableWord 8 0xF3 = some .nameDec := by decide

/-! ### Well-formedness: an ill-formed term for each check -/

theorem test_wf_reservedAB_refuses : Instr.wellFormed (.reservedAB 0xC) = false := by decide
theorem test_wf_reservedCF_refuses : Instr.wellFormed (.reservedCF 0xB) = false := by decide
theorem test_wf_label_empty_refused : labelOk [] = false := by decide
theorem test_wf_label_64_refused : labelOk (List.replicate 64 0x61) = false := by decide
theorem test_wf_label_63_accepted : labelOk (List.replicate 63 0x61) = true := by decide
theorem test_wf_label_separator_refused : labelClean (bs [0x61, 0x2E]) = false := by decide
theorem test_wf_data_length_refused : (recordX 16 4 [1, 2, 3]).dataOk 1 = false := by decide
theorem test_wf_data_size_refused : (recordX 1 3 [1, 2, 3]).dataOk 1 = false := by decide
theorem test_wf_data_other_type_accepted : (recordX 16 3 [1, 2, 3]).dataOk 1 = true := by decide
theorem test_wf_ports_buffer_refused :
    Ports.admissible { Ports.unbounded with bufCap := some 511 } = false := by decide
theorem test_wf_ports_cursor_refused :
    Ports.admissible { Ports.unbounded with bufCap := some 512, cursorW := some 9 } = false := by
  decide
theorem test_wf_ports_accepted :
    Ports.admissible { Ports.unbounded with bufCap := some 512, cursorW := some 10 } = true := by
  decide

/-! ### HDR_ENC, HDR_DEC -/

/-- T4. -/
theorem test_hdrEnc_flags :
    answer .hdrEnc { blankReq with h := some { zeroHeader with
      id := 0x04D2, qr := true, opcode := 3, rd := true, rcode := 4, qdcount := 1,
      ancount := 1 } } =
    some (okOutput (bs [0x04, 0xD2, 0x99, 0x04, 0, 1, 0, 1, 0, 0, 0, 0])) := by decide

/-- T5: bytes 2 and 3 with one flag field set. -/
theorem test_hdrEnc_single_flags :
    let at23 := fun h => ((hdrEnc h).drop 2).take 2
    at23 { zeroHeader with opcode := 1 } = bs [0x08, 0] ∧
    at23 { zeroHeader with aa := true } = bs [0x04, 0] ∧
    at23 { zeroHeader with tc := true } = bs [0x02, 0] ∧
    at23 { zeroHeader with ra := true } = bs [0, 0x80] ∧
    at23 { zeroHeader with z := 1 } = bs [0, 0x10] ∧
    at23 { zeroHeader with rcode := 15 } = bs [0, 0x0F] := by decide

/-- T8. -/
theorem test_hdrDec_fields :
    answer .hdrDec (inBuf [0xBE, 0xEF, 0x2A, 0x5B, 0, 1, 0, 2, 0, 3, 0, 4]) =
    some { Rsp.blank with status := some .ok, h := some { zeroHeader with
      id := 0xBEEF, opcode := 5, tc := true, z := 5, rcode := 11, qdcount := 1, ancount := 2,
      nscount := 3, arcount := 4 } } := by decide

/-- T12 (V8): 11 bytes. -/
theorem test_hdrDec_short :
    answer .hdrDec (inBuf [0, 0, 0, 0, 0, 0, 0, 0, 0, 0, 0]) = err .truncated := by decide

/-! ### NAME_ENC, NAME_DEC -/

/-- V2. -/
theorem test_nameEnc_labels :
    answer .nameEnc (inName abcExample) = some (okOutput (bs abcExampleWire)) := by decide

/-- T24 to T27 and T29: the empty pieces, and the root. -/
theorem test_nameEnc_empty_labels :
    answer .nameEnc (inName [0x2E]) = err .invalidLabel ∧
    answer .nameEnc (inName [0x2E, 0x61]) = err .invalidLabel ∧
    answer .nameEnc (inName [0x61, 0x2E]) = err .invalidLabel ∧
    answer .nameEnc (inName [0x61, 0x2E, 0x2E, 0x62]) = err .invalidLabel ∧
    answer .nameEnc (inName []) = some (okOutput (bs [0])) := by decide

/-- T32: an offset in, the bytes around the name not read. -/
theorem test_nameDec_at_offset :
    answer .nameDec (inAt [0xFF, 0x03, 0x61, 0x62, 0x63, 0x00, 0x99] 1) =
    some { Rsp.blank with
      status := some .ok, name := some (bs [0x61, 0x62, 0x63]), newoff := some 6 } := by decide

/-- T35 to T39 and T43. -/
theorem test_nameDec_errors :
    answer .nameDec (inAt [0xC0, 0x0C] 0) = err .unsupportedCompression ∧
    answer .nameDec (inAt [0x40] 0) = err .invalidLabel ∧
    answer .nameDec (inAt [0xBF, 0x00] 0) = err .invalidLabel ∧
    answer .nameDec (inAt [0x01, 0x61] 0) = err .truncated ∧
    answer .nameDec (inAt [0x02, 0x61] 0) = err .truncated ∧
    answer .nameDec (inAt [0x01, 0x61, 0xC0] 0) = err .unsupportedCompression := by decide

/-! ### Q_ENC, Q_DEC -/

/-- T51 and T52. -/
theorem test_qEnc :
    answer .qEnc { blankReq with q := some { name := [], qtype := 0xFFFF, qclass := 0 } } =
      some (okOutput (bs [0x00, 0xFF, 0xFF, 0x00, 0x00])) ∧
    answer .qEnc { blankReq with
      q := some { name := bs [0x61, 0x2E, 0x2E, 0x62], qtype := 1, qclass := 1 } } =
      err .invalidLabel := by decide

/-- T53: NEWOFF is the length of the buffer. -/
theorem test_qDec_whole :
    answer .qDec (inAt (abcExampleWire ++ [0x00, 0x01, 0x00, 0x01]) 0) =
    some { Rsp.blank with
      status := some .ok
      q := some { name := bs abcExample, qtype := 1, qclass := 1 }
      newoff := some 17 } := by decide

/-- T54 and T57. -/
theorem test_qDec_errors :
    answer .qDec (inAt (abcExampleWire ++ [0x00, 0x01, 0x00]) 0) = err .truncated ∧
    answer .qDec (inAt [0xC0, 0x0C] 0) = err .unsupportedCompression := by decide

/-! ### RR_ENC, RR_DEC -/

/-- T60. -/
theorem test_rrEnc_answer :
    answer .rrEnc { blankReq with rr := some answerRecord } =
      some (okOutput (bs answerWire)) := by decide

/-- T61, T62, T65, T66: each data error, and the name before it. -/
theorem test_rrEnc_errors :
    answer .rrEnc { blankReq with rr := some (recordX 1 3 [1, 2, 3]) } = err .invalidRData ∧
    answer .rrEnc { blankReq with rr := some (recordX 1 4 [1, 2, 3]) } = err .invalidRData ∧
    answer .rrEnc { blankReq with rr := some (recordX 1 0 []) } = err .invalidRData ∧
    answer .rrEnc { blankReq with
      rr := some { recordX 1 3 [1, 2, 3] with name := bs [0x78, 0x2E] } } =
      err .invalidLabel := by decide

/-- T68. -/
theorem test_rrDec_answer :
    answer .rrDec (inAt answerWire 0) =
    some { Rsp.blank with status := some .ok, rr := some answerRecord, newoff := some 31 } := by
  decide

/-- T69 to T72: the data short, the fixed bytes short, and an A record with no data. -/
theorem test_rrDec_edges :
    answer .rrDec (inAt (answerWire.take 30) 0) = err .truncated ∧
    answer .rrDec (inAt (answerWire.take 26) 0) = err .truncated ∧
    answer .rrDec (inAt [0, 0, 1, 0, 1, 0, 0, 0, 0, 0, 2, 0xAA] 0) = err .truncated ∧
    answer .rrDec (inAt [0, 0, 1, 0, 1, 0, 0, 0, 0, 0, 0] 0) =
      some { Rsp.blank with
        status := some .ok
        rr := some { zeroRecord with rtype := 1, rclass := 1 }
        newoff := some 11 } := by decide

/-! ### MSG_BUILD, MSG_PARSE -/

/-- The request of P2, step 3. -/
def responseRequest : Req :=
  { blankReq with
    h := some { zeroHeader with
      id := 0x04D2, qr := true, rd := true, qdcount := 1, ancount := 1 }
    qlist := some [{ name := bs codecrafters, qtype := 1, qclass := 1 }]
    rrlist := some [answerRecord] }

/-- P2, step 3: the header, the question at offset 12 and the answer at offset 33. -/
theorem test_msgBuild_response :
    let part := fun i n =>
      ((answer .msgBuild responseRequest).bind (·.obuf)).map fun b => (b.drop i).take n
    part 0 12 = some (bs [0x04, 0xD2, 0x81, 0, 0, 1, 0, 1, 0, 0, 0, 0]) ∧
    part 12 21 = some (bs questionWire) ∧ part 33 64 = some (bs answerWire) := by decide +kernel

/-- T81 to T83: the first failure in order, no partial output, counts not checked. -/
theorem test_msgBuild_failures :
    let ok : Question := { name := bs [0x6F, 0x6B], qtype := 1, qclass := 1 }
    let bad : Question := { name := bs [0x61, 0x2E, 0x2E, 0x78], qtype := 1, qclass := 1 }
    let build := fun h qs rs =>
      answer .msgBuild { blankReq with h := some h, qlist := some qs, rrlist := some rs }
    build zeroHeader [ok, bad] [recordX 1 3 [1, 2, 3]] = err .invalidLabel ∧
    build zeroHeader [ok] [recordX 1 3 [1, 2, 3]] = err .invalidRData ∧
    build { zeroHeader with qdcount := 5 } [] [] =
      some (okOutput (bs [0, 0, 0, 0, 0, 5, 0, 0, 0, 0, 0, 0])) := by decide

/-- P5, step 4: two questions and two bytes that are not read. -/
theorem test_msgParse_two_questions :
    answer .msgParse (inBuf [0xBE, 0xEF, 0, 0, 0, 2, 0, 0, 0, 0, 0, 0, 0x01, 0x61, 0x02, 0x62,
      0x63, 0x00, 0x00, 0x1C, 0x00, 0x01, 0x00, 0x00, 0x02, 0x00, 0x03, 0xDE, 0xAD]) =
    some { Rsp.blank with
      status := some .ok
      h := some { zeroHeader with id := 0xBEEF, qdcount := 2 }
      qlist := some [{ name := bs [0x61, 0x2E, 0x62, 0x63], qtype := 0x1C, qclass := 1 },
        { name := [], qtype := 2, qclass := 3 }] } := by decide

/-- P4, step 1, and T85: the header is not returned with an error. -/
theorem test_msgParse_errors :
    answer .msgParse (inBuf ([0x00, 0x07, 0x01, 0, 0, 2, 0, 0, 0, 0, 0, 0] ++ abcExampleWire ++
      [0x00, 0x01, 0x00, 0x01, 0xC0, 0x0C, 0x00, 0x01, 0x00, 0x01])) =
      err .unsupportedCompression ∧
    answer .msgParse (inBuf [0x12, 0x34, 0, 0, 0, 1, 0, 0, 0, 0, 0, 0]) = err .truncated := by
  decide

/-! ### Reserved codes (T90 to T92), the step and the host -/

theorem test_reservedAB : answer (.reservedAB 0xA) (inAt [0xC0] 7) = err .illegalOperation := by
  decide
theorem test_reservedCF : answer (.reservedCF 0xF) blankReq = err .illegalOperation := by decide

/-- Whether the code `w`, placed right after reset, completes in the very next step. -/
def completesFromReset (w : U4) : Bool :=
  match step (State.reset.withFetchWord 8 w.toNat) with
  | .next t => !t.running && t.rsp.status.isSome
  | .fault _ => false
  | .refused _ => false

theorem test_placed_word_runs_from_reset : ∀ w : U4, completesFromReset w = true := by decide

/-- 70_reset_and_hazards.md R175: STATUS and the results read as faults right after reset. -/
theorem test_reset_reads_fault :
    readFault State.reset .status = some (.noValue .status) ∧
    readFault State.reset .obuf = some (.noValue .obuf) := by decide

/-! ### Witnesses: states and operands that meet the hypotheses of the obligations -/

/-- A complete request, of the root's encoding. -/
def rootRequest : Req := { blankReq with op := some 0x2, name := some [] }

/-- The labels of "a.b". -/
def labelsAB : List Bytes := [bs [0x61], bs [0x62]]

/-- A label of the greatest length, and one of each length out of range. -/
def label63 : Bytes := List.replicate 63 0x61
def label64 : Bytes := List.replicate 64 0x61

theorem witness_ResetHoldsNoValueAndReadsFault :
    rspHolds State.reset.rsp .obuf = false ∧ reqHolds State.reset.req .off = false ∧
    (∃ t, hostWrite (.op 0x2) State.reset = .next t) ∧
    (∃ t, hostStart { State.reset with req := rootRequest } = .next t) ∧
    (∃ t, present rootRequest State.reset = .next t) ∧
    (∃ t, step (started rootRequest) = .next t ∧
      rspHolds (started rootRequest).rsp .obuf = false ∧ rspHolds t.rsp .obuf = true) :=
  ⟨rfl, rfl, ⟨_, rfl⟩, ⟨_, rfl⟩, ⟨_, rfl⟩, _, rfl, rfl, rfl⟩

theorem witness_WaitingBlockStaysAsItIs : State.reset.running = false := by decide

theorem witness_StepRunsTheSelectedOperation :
    (started rootRequest).running = true ∧ (started rootRequest).req.op = some 0x2 := by decide

theorem witness_OperationCodesRoundTrip :
    Instr.wellFormed .hdrEnc = true ∧ Instr.wellFormed .msgParse = true ∧
    Instr.wellFormed (.reservedAB 0xA) = true ∧ Instr.wellFormed (.reservedAB 0xB) = true ∧
    Instr.wellFormed (.reservedCF 0xC) = true ∧ Instr.wellFormed (.reservedCF 0xF) = true := by
  decide

theorem witness_StatusCodesAreTheTable :
    Status.code (.error .truncated) = Status.code (.error .truncated) := by decide

/-- One byte too few for each width, at offset 1. -/
theorem witness_MemReadIsBigEndianOrTruncated :
    (bs [1]).length < 1 + 1 ∧ (bs [1, 2]).length < 1 + 2 ∧ (bs [1, 2, 3, 4]).length < 1 + 4 := by
  decide

theorem witness_ReadBytesIsTheSliceOrTruncated : (bs [1, 2]).length < 1 + 2 := by decide

/-- An address at the end, the first and last byte stored, the byte before and the byte after. -/
theorem witness_MemWriteStoresBigEndianBytes :
    2 ≤ (bs [1, 2]).length ∧ 0 < 2 ∧ 1 < 2 ∧ 2 + 2 ≤ 4 := by decide

theorem witness_EmitAppendsOnly : 1 < (bs [1, 2]).length := by decide

theorem witness_HdrEncWritesTheWireHeader :
    (started { blankReq with h := some zeroHeader }).req.h = some zeroHeader := by decide

/-- Exactly 12 bytes, 13 bytes, and 11 bytes. -/
theorem witness_HdrDecReadsEachFieldFromItsBits :
    (started (inBuf [1, 2, 3, 4, 5, 6, 7, 8, 9, 10, 11, 12])).req.ibuf =
      some ([1, 2, 3, 4, 5, 6, 7, 8, 9, 10, 11, 12] ++ []) ∧
    (started (inBuf [1, 2, 3, 4, 5, 6, 7, 8, 9, 10, 11, 12, 13])).req.ibuf =
      some ([1, 2, 3, 4, 5, 6, 7, 8, 9, 10, 11, 12] ++ [13]) ∧
    (started (inBuf [1, 2, 3, 4, 5, 6, 7, 8, 9, 10, 11])).req.ibuf =
      some (bs [1, 2, 3, 4, 5, 6, 7, 8, 9, 10, 11]) ∧
    (bs [1, 2, 3, 4, 5, 6, 7, 8, 9, 10, 11]).length < 12 := by decide

theorem witness_HeaderSurvivesEncodeThenDecode :
    (started { blankReq with h := some zeroHeader }).req.h = some zeroHeader ∧
    (started { blankReq with ibuf := some (hdrEnc zeroHeader ++ bs [0xAA]) }).req.ibuf =
      some (hdrEnc zeroHeader ++ bs [0xAA]) := by decide

theorem witness_HeaderBytesSurviveDecodeThenEncode :
    (started { blankReq with ibuf := some zeroBuffer }).req.ibuf = some zeroBuffer ∧
    12 ≤ zeroBuffer.length := by decide

theorem witness_SplitAndJoinAreInverse : labelsAB ≠ [] ∧ labelsClean labelsAB := by
  unfold labelsClean; decide

/-- The root, labels of 1 and 63 bytes, an empty label, and a label of 64 bytes. -/
theorem witness_NameEncWritesLabelsOrInvalidLabel :
    (started (inName [])).req.name = some [] ∧
    (bs [0x61] ≠ [] ∧ labelsOk (split (bs [0x61]))) ∧
    (label63 ≠ [] ∧ labelsOk (split label63)) ∧
    (bs [0x2E] ≠ [] ∧ ¬ labelsOk (split (bs [0x2E]))) ∧
    (label64 ≠ [] ∧ ¬ labelsOk (split label64)) := by
  unfold labelsOk; decide

/-- A whole name between other bytes; then, after one whole label, an empty rest, the bounds of
the three classes, and labels whose bytes run out. -/
theorem witness_NameDecDecodesOrReportsTheFirstError :
    (labelsOk labelsAB ∧
      (started (inAt [0xFF, 1, 0x61, 1, 0x62, 0, 0xEE] 1)).req.ibuf =
        some (bs [0xFF] ++ wireName labelsAB ++ bs [0xEE]) ∧
      (started (inAt [0xFF, 1, 0x61, 1, 0x62, 0, 0xEE] 1)).req.off =
        some (bs [0xFF]).length) ∧
    labelsOk [bs [0x61]] ∧
    (started (inAt [1, 0x61] 0)).req.ibuf = some ([] ++ wireLabels [bs [0x61]] ++ []) ∧
    (started (inAt [1, 0x61, 0xC0] 0)).req.ibuf = some ([] ++ wireLabels [bs [0x61]] ++ [0xC0]) ∧
    (started (inAt [1, 0x61, 0xBF] 0)).req.ibuf = some ([] ++ wireLabels [bs [0x61]] ++ [0xBF]) ∧
    (started (inAt [1, 0x61, 0x01] 0)).req.ibuf = some ([] ++ wireLabels [bs [0x61]] ++ [0x01]) ∧
    (started (inAt [1, 0x61, 0x3F] 0)).req.off = some ([] : Bytes).length ∧
    0xC0 ≤ (0xC0 : Byte).toNat ∧
    (0x40 ≤ (0x40 : Byte).toNat ∧ (0xBF : Byte).toNat < 0xC0) ∧
    (1 ≤ (0x01 : Byte).toNat ∧ (0x3F : Byte).toNat < 0x40 ∧
      ([] : Bytes).length < (0x01 : Byte).toNat ∧ (bs [7]).length < (0x02 : Byte).toNat) := by
  unfold labelsOk; decide

/-- An offset equal to the length, and one past it. -/
theorem witness_OffsetPastTheEndIsTruncated :
    (started (inAt [0] 1)).req.ibuf = some (bs [0]) ∧ (started (inAt [0] 1)).req.off = some 1 ∧
    (bs [0]).length ≤ 1 ∧ (bs [0]).length ≤ 2 := by decide

theorem witness_NameSurvivesEncodeThenDecode :
    labelsOk labelsAB ∧ labelsClean labelsAB ∧ labelsOk [] ∧ labelsClean [] ∧
    labelsOk [label63] ∧ labelsClean [label63] ∧
    (started { blankReq with name := some (join labelsAB) }).req.name = some (join labelsAB) ∧
    (started (inAt [1, 0x61, 1, 0x62, 0] 0)).req.ibuf = some ([] ++ wireName labelsAB ++ []) := by
  unfold labelsOk labelsClean; decide

/-- A name with clean labels, and one with a separator inside a label (T34). -/
theorem witness_DecodedNameSpansItsWireForm :
    nameDec (bs [1, 0x61, 1, 0x62, 0]) 0 = .ok (bs [0x61, 0x2E, 0x62], 5) ∧
    labelsClean labelsAB ∧
    nameDec (bs [3, 0x61, 0x2E, 0x62, 0]) 0 = .ok (bs [0x61, 0x2E, 0x62], 5) ∧
    ¬ labelsClean [bs [0x61, 0x2E, 0x62]] := by
  unfold labelsClean; decide

theorem witness_EncodedNameLength :
    (∃ t, exec .nameEnc (started (inName [])) = .next t ∧ t.rsp.obuf = some (bs [0])) ∧
    (∃ t, exec .nameEnc (started (inName [0x61])) = .next t ∧
      t.rsp.obuf = some (bs [1, 0x61, 0])) ∧ bs [0x61] ≠ [] :=
  ⟨⟨_, rfl, rfl⟩, ⟨_, rfl, rfl⟩, by decide⟩

/-- A question for the root, and one whose name has an empty label. -/
theorem witness_QEncWritesTheWireQuestion :
    (started { blankReq with q := some zeroQuestion }).req.q = some zeroQuestion ∧
    questionOk zeroQuestion ∧ ¬ questionOk { zeroQuestion with name := bs [0x2E] } := by
  unfold questionOk labelsOk; decide

/-- A whole question, a pointer, and a name with 3 bytes after it. -/
theorem witness_QDecReadsNameThenFourBytes :
    labelsOk labelsAB ∧
    (started (inAt [1, 0x61, 1, 0x62, 0, 0, 1, 0, 1] 0)).req.ibuf =
      some ([] ++ wireQuestion labelsAB 1 1 ++ []) ∧
    (started (inAt [1, 0x61, 1, 0x62, 0, 0, 1, 0, 1] 0)).req.off = some ([] : Bytes).length ∧
    nameDec (bs [0xC0]) 0 = .error .unsupportedCompression ∧
    (bs [0, 1, 0]).length < 4 ∧
    (started (inAt [1, 0x61, 1, 0x62, 0, 0, 1, 0] 0)).req.ibuf =
      some ([] ++ wireName labelsAB ++ bs [0, 1, 0]) := by
  unfold labelsOk; decide

theorem witness_QuestionSurvivesEncodeThenDecode :
    labelsOk labelsAB ∧ labelsClean labelsAB ∧
    (started { blankReq with
      q := some { name := join labelsAB, qtype := 1, qclass := 1 } }).req.q =
      some { name := join labelsAB, qtype := 1, qclass := 1 } ∧
    (started (inAt [1, 0x61, 1, 0x62, 0, 0, 1, 0, 1] 0)).req.ibuf =
      some ([] ++ wireQuestion labelsAB 1 1 ++ []) := by
  unfold labelsOk labelsClean; decide

/-- A bad name; a wrong declared length; an A record of 3 and of 5 bytes; an A record of 4. -/
theorem witness_RrEncChecksThenWritesTheWireRecord :
    (started { blankReq with rr := some answerRecord }).req.rr = some answerRecord ∧
    ¬ labelsOk (nameLabels (bs [0x78, 0x2E])) ∧
    (labelsOk (nameLabels (recordX 16 1 []).name) ∧
      (recordX 16 1 []).rdlength.toNat ≠ (recordX 16 1 []).rdata.length) ∧
    (labelsOk (nameLabels (recordX 1 3 [1, 2, 3]).name) ∧
      (recordX 1 3 [1, 2, 3]).rtype = Config.typeA ∧ (recordX 1 3 [1, 2, 3]).rdata.length ≠ 4) ∧
    (recordX 1 5 [1, 2, 3, 4, 5]).rdata.length ≠ 4 ∧
    (labelsOk (nameLabels answerRecord.name) ∧
      answerRecord.rdlength.toNat = answerRecord.rdata.length ∧
      (answerRecord.rtype = Config.typeA → answerRecord.rdata.length = 4)) := by
  unfold labelsOk; decide

theorem witness_RecordAcceptedForAnyTypeCode :
    recordOk 1 answerRecord ∧ recordOk 7 (recordX 1 3 [1, 2, 3]) ∧
    ¬ recordOk 1 (recordX 1 3 [1, 2, 3]) := by
  unfold recordOk labelsOk; decide

/-- A whole record, a pointer, 9 fixed bytes, and data one byte short. -/
theorem witness_RrDecReadsNameFixedBytesThenData :
    (labelsOk [bs [0x78]] ∧ (recordX 1 2 [1, 2]).name = join [bs [0x78]] ∧
      (recordX 1 2 [1, 2]).rdata.length = (recordX 1 2 [1, 2]).rdlength.toNat ∧
      (started (inAt [1, 0x78, 0, 0, 1, 0, 1, 0, 0, 0, 60, 0, 2, 1, 2] 0)).req.ibuf =
        some ([] ++ wireRecord [bs [0x78]] (recordX 1 2 [1, 2]) ++ []) ∧
      (started (inAt [1, 0x78, 0, 0, 1, 0, 1, 0, 0, 0, 60, 0, 2, 1, 2] 0)).req.off =
        some ([] : Bytes).length) ∧
    nameDec (bs [0xC0]) 0 = .error .unsupportedCompression ∧
    ((bs [0, 1, 0, 1, 0, 0, 0, 60, 0]).length < 10 ∧
      (started (inAt [1, 0x78, 0, 0, 1, 0, 1, 0, 0, 0, 60, 0] 0)).req.ibuf =
        some ([] ++ wireName [bs [0x78]] ++ bs [0, 1, 0, 1, 0, 0, 0, 60, 0])) ∧
    ((recordX 1 2 [1]).rdata.length < (recordX 1 2 [1]).rdlength.toNat ∧
      (started (inAt [1, 0x78, 0, 0, 1, 0, 1, 0, 0, 0, 60, 0, 2, 1] 0)).req.ibuf =
        some ([] ++ wireRecord [bs [0x78]] (recordX 1 2 [1]))) := by
  unfold labelsOk; decide

theorem witness_RecordSurvivesEncodeThenDecode :
    labelsOk [bs [0x78]] ∧ labelsClean [bs [0x78]] ∧
    (recordX 1 4 [1, 2, 3, 4]).name = join [bs [0x78]] ∧
    (recordX 1 4 [1, 2, 3, 4]).dataOk Config.typeA = true ∧
    (started { blankReq with rr := some (recordX 1 4 [1, 2, 3, 4]) }).req.rr =
      some (recordX 1 4 [1, 2, 3, 4]) ∧
    (started (inAt [1, 0x78, 0, 0, 1, 0, 1, 0, 0, 0, 60, 0, 4, 1, 2, 3, 4] 0)).req.ibuf =
      some ([] ++ wireRecord [bs [0x78]] (recordX 1 4 [1, 2, 3, 4]) ++ []) := by
  unfold labelsOk labelsClean; decide

/-- The question and the record used for messages. -/
def okQuestion : Question := { name := join labelsAB, qtype := 1, qclass := 1 }
def badQuestion : Question := { name := bs [0x2E], qtype := 1, qclass := 1 }

/-- A request to build a message. -/
def building (h : Header) (qs : List Question) (rs : List ResourceRecord) : Req :=
  { blankReq with h := some h, qlist := some qs, rrlist := some rs }

theorem witness_MsgBuildConcatenatesWireForms :
    (started (building zeroHeader [okQuestion] [answerRecord])).req =
      building zeroHeader [okQuestion] [answerRecord] ∧
    ((∀ q ∈ [okQuestion], questionOk q) ∧ ∀ r ∈ [answerRecord], recordOk Config.typeA r) ∧
    (∃ q ∈ [okQuestion, badQuestion], ¬ questionOk q) ∧
    (∃ r ∈ [recordX 1 3 [1, 2, 3]], ¬ recordOk Config.typeA r) := by
  unfold questionOk recordOk labelsOk; decide

/-- The second question fails; the second record fails, by its name and by its data. -/
theorem witness_MsgBuildReportsTheFirstFailure :
    (started (building zeroHeader [okQuestion, badQuestion] [])).req.qlist =
      some ([okQuestion] ++ badQuestion :: []) ∧
    (∀ x ∈ [okQuestion], questionOk x) ∧ ¬ questionOk badQuestion ∧
    (∀ x ∈ [answerRecord], recordOk Config.typeA x) ∧
    ¬ labelsOk (nameLabels (bs [0x78, 0x2E])) ∧
    (labelsOk (nameLabels (recordX 1 3 [1, 2, 3]).name) ∧
      (recordX 1 3 [1, 2, 3]).dataOk Config.typeA = false) := by
  unfold questionOk recordOk labelsOk; decide

/-- No question (QDCOUNT 0); one question with a byte after it; eleven bytes; and a first
question that is missing. -/
theorem witness_MsgParseReadsItsQuestionsOrReportsTheFirstFailure :
    ((started (inBuf [0, 0, 0, 0, 0, 0, 0, 0, 0, 0, 0, 0])).req.ibuf =
        some (wireHeader zeroHeader ++ wireRaw [] ++ []) ∧
      ([] : List RawQuestion).length = zeroHeader.qdcount.toNat) ∧
    (labelsOk labelsAB ∧
      ([(labelsAB, 1, 1)] : List RawQuestion).length =
        ({ zeroHeader with qdcount := 1 } : Header).qdcount.toNat ∧
      (started (inBuf [0, 0, 0, 0, 0, 1, 0, 0, 0, 0, 0, 0, 1, 0x61, 1, 0x62, 0, 0, 1, 0, 1,
        0xEE])).req.ibuf =
        some (wireHeader { zeroHeader with qdcount := 1 } ++ wireRaw [(labelsAB, 1, 1)] ++
          bs [0xEE])) ∧
    ((started (inBuf [0, 0, 0, 0, 0, 0, 0, 0, 0, 0, 0])).req.ibuf = some (zeroBuffer.take 11) ∧
      (zeroBuffer.take 11).length < 12) ∧
    (([] : List RawQuestion).length < ({ zeroHeader with qdcount := 1 } : Header).qdcount.toNat ∧
      (started (inBuf [0, 0, 0, 0, 0, 1, 0, 0, 0, 0, 0, 0])).req.ibuf =
        some (wireHeader { zeroHeader with qdcount := 1 } ++ wireRaw [] ++ []) ∧
      qDec (wireHeader { zeroHeader with qdcount := 1 } ++ wireRaw [] ++ [])
        (12 + (wireRaw []).length) = .error .truncated) := by
  unfold labelsOk; decide

/-- A message of one question and one record. -/
theorem witness_ParseInvertsBuild :
    let h : Header := { zeroHeader with qdcount := 1 }
    h.qdcount.toNat = [okQuestion].length ∧
    (labelsOk labelsAB ∧ labelsClean labelsAB ∧ okQuestion.name = join labelsAB) ∧
    ∃ b, exec .msgBuild (started (building h [okQuestion] [zeroRecord])) =
      .next ((started (building h [okQuestion] [zeroRecord])).answered (okOutput b)) := by
  refine ⟨by decide, ?_, _, rfl⟩
  unfold labelsOk labelsClean
  decide

theorem witness_BuiltMessageLength :
    exec .msgBuild (started (building zeroHeader [] [])) =
      .next ((started (building zeroHeader [] [])).answered (okOutput zeroBuffer)) := rfl

/-- A message of one question for the root, parsed and walked. -/
theorem witness_DecoderChainAgreesWithParse :
    (started (inBuf [0, 0, 0, 0, 0, 1, 0, 0, 0, 0, 0, 0, 0, 0, 1, 0, 1])).req.ibuf =
      some (bs [0, 0, 0, 0, 0, 1, 0, 0, 0, 0, 0, 0, 0, 0, 1, 0, 1]) ∧
    answer .msgParse (inBuf [0, 0, 0, 0, 0, 1, 0, 0, 0, 0, 0, 0, 0, 0, 1, 0, 1]) =
      some { Rsp.blank with
        status := some .ok
        h := some { zeroHeader with qdcount := 1 }
        qlist := some [{ name := [], qtype := 1, qclass := 1 }] } ∧
    qDec (bs [0, 0, 0, 0, 0, 1, 0, 0, 0, 0, 0, 0, 0, 0, 1, 0, 1]) 12 =
      .ok ({ name := [], qtype := 1, qclass := 1 }, 17) := by decide

/-- Each decoder succeeds on 12 zero bytes; the second request has one byte more. -/
theorem witness_DecodersIgnoreTrailingBytes :
    (started { blankReq with ibuf := some (zeroBuffer ++ bs [9]), off := some 0 }).req.off =
      (started { blankReq with ibuf := some zeroBuffer, off := some 0 }).req.off ∧
    ∀ i ∈ [Instr.hdrDec, .nameDec, .qDec, .rrDec, .msgParse],
      (answer i { blankReq with ibuf := some zeroBuffer, off := some 0 }).bind (·.status) =
        some .ok := by decide

/-- The first and the last reserved code. -/
theorem witness_ReservedCodesReportIllegalOperation :
    (started { blankReq with op := some 0xA }).running = true ∧
    (started { blankReq with op := some 0xA }).req.op = some 0xA ∧ 0xA ≤ (0xA : U4).toNat ∧
    0xA ≤ (0xF : U4).toNat := by decide

/-- An operation that reads a buffer and answers. -/
theorem witness_NoOperationWritesTheRequest :
    ∃ t, exec .hdrDec (started (inBuf [0])) = .next t ∧
      (started (inBuf [0])).req.ibuf = some (bs [0]) ∧ t.req.ibuf = some (bs [0]) :=
  ⟨_, rfl, rfl, rfl⟩

/-- One answer with OK and one with an error. -/
theorem witness_ResultFieldsFollowTheStatus :
    (∃ t, exec .nameEnc (started (inName [])) = .next t) ∧
    (∃ t, exec .nameEnc (started (inName [0x2E])) = .next t) := ⟨⟨_, rfl⟩, ⟨_, rfl⟩⟩

theorem witness_StatusTableIsExact :
    (∃ t, exec .hdrDec (started (inBuf [])) = .next t) ∧
    Status.error .truncated ∈ statusesOf .hdrDec := ⟨⟨_, rfl⟩, by decide⟩

/-- Two requests that agree on the name and differ elsewhere. -/
theorem witness_ResponseDependsOnItsOperandsOnly :
    agreeOn (readsOf (formatOf .nameEnc)) rootRequest { rootRequest with off := some 3 } ∧
    (∃ t, exec .nameEnc (started rootRequest) = .next t) := by
  refine ⟨?_, _, rfl⟩
  unfold agreeOn
  decide

theorem witness_CompleteRequestCompletes :
    (started rootRequest).running = true ∧ requestComplete (started rootRequest).req = true := by
  decide

/-- A running transaction that no host can start is refused. -/
theorem witness_StepStopsOnlyOnIncompleteRequests :
    step (started { blankReq with op := some 0x2 }) = .refused .incompleteRequest := rfl

/-- A state of the invariant in which a transaction runs. -/
theorem witness_StepKeepsTheInvariant :
    (started rootRequest).Inv ∧ ∃ t, step (started rootRequest) = .next t := by
  refine ⟨⟨⟨fun _ f hf => ?_, fun e he => ?_, fun he => ?_, fun _ _ he => ?_, fun _ he => ?_⟩,
    fun _ => by decide⟩, _, rfl⟩
  · revert f; decide
  · simp [started, Rsp.blank] at he
  · simp [started, Rsp.blank] at he
  · simp [started, Rsp.blank] at he
  · simp [started, Rsp.blank] at he

/-- A state of the invariant that waits, with each of the host's moves. -/
theorem witness_HostMovesKeepTheInvariant :
    State.Inv { State.reset with req := rootRequest } ∧
    (∃ t, hostWrite (.off 3) { State.reset with req := rootRequest } = .next t) ∧
    (∃ t, hostStart { State.reset with req := rootRequest } = .next t) ∧
    (∃ t, present rootRequest { State.reset with req := rootRequest } = .next t) := by
  refine ⟨⟨⟨fun _ f hf => ?_, fun e he => ?_, fun he => ?_, fun _ _ he => ?_, fun _ he => ?_⟩,
    fun _ => by decide⟩, ⟨_, rfl⟩, ⟨_, rfl⟩, ⟨_, rfl⟩⟩
  · revert f; decide
  · simp [State.reset, Rsp.blank] at he
  · simp [State.reset, Rsp.blank] at he
  · simp [State.reset, Rsp.blank] at he
  · simp [State.reset, Rsp.blank] at he

theorem witness_RunningTransactionAdmitsOnlyReset : (started rootRequest).running = true := by
  decide

theorem witness_HostReadsExactlyTheWrittenFields :
    rootRequest.op = some 0x2 ∧ (∃ t, transact rootRequest State.reset = .next t) ∧
    RspField.obuf ∈ resultFields ∧ RspField.newoff ∈ resultFields := by
  refine ⟨by decide, ⟨_, rfl⟩, by decide, by decide⟩

/-- A run of no transaction, and one of two. -/
theorem witness_RunIsTheSequenceOfItsTransactions :
    State.reset.running = false ∧ (∀ r ∈ ([] : List Req), requestComplete r = true) ∧
    (∀ r ∈ [rootRequest, { blankReq with op := some 0xF }], requestComplete r = true) := by decide

/-- A buffer one byte over its port, one just within, an output one byte over its port, one just
within. -/
theorem witness_CapacitiesRefuseAndChangeNothingElse :
    let tight : Ports := { Ports.unbounded with bufCap := some 1, outCap := some 1 }
    (started rootRequest).running = true ∧ fetch (started rootRequest) = some .nameEnc ∧
    exceedsPorts tight { rootRequest with ibuf := some (bs [1, 2]) } ∧
    requestFits tight { rootRequest with ibuf := some (bs [1]) } = true ∧
    (∃ t, exec .nameEnc (started rootRequest) = .next t ∧ t.rsp.obuf = some (bs [0]) ∧
      ¬ exceeds tight.outCap (bs [0]).length ∧ exceeds (some 0) (bs [0]).length) := by
  refine ⟨rfl, rfl, ?_, rfl, _, rfl, rfl, ?_, ?_⟩
  · exact .inr (.inr (.inr (.inr (.inr (.inl ⟨_, rfl, 1, rfl, by decide⟩)))))
  · rintro ⟨c, hc, hlt⟩
    injection hc with hc
    subst hc
    exact absurd hlt (by decide)
  · exact ⟨0, rfl, by decide⟩

/-- The least admissible buffer and cursor, and a decode that returns the length of its buffer. -/
theorem witness_ReturnedOffsetsFitTheCursor :
    let least : Block :=
      { Config.block with
        ports := { Ports.unbounded with bufCap := some 512, cursorW := some 10 } }
    let s := started { blankReq with op := some 0x3, ibuf := some (bs [0]), off := some 0 }
    least.ports.admissible = true ∧ s.running = true ∧
    ∃ t, stepWithin least s = .next t ∧ t.rsp.newoff = some 1 := by
  refine ⟨rfl, rfl, _, rfl, rfl⟩

/-- A block with TYPE_A 7: records that pass and fail there, and the same in a message. -/
theorem witness_RecordsAreCheckedAtTheTypeCodeOfTheBlock :
    let seven : Block := { Config.block with typeA := 7 }
    let s := started { blankReq with op := some 0x6, rr := some (recordX 7 3 [1, 2, 3]) }
    seven.ports = Ports.unbounded ∧ s.running = true ∧ s.req.op = some 0x6 ∧
    ¬ labelsOk (nameLabels (bs [0x78, 0x2E])) ∧
    (labelsOk (nameLabels (recordX 7 3 [1, 2, 3]).name) ∧
      (recordX 7 3 [1, 2, 3]).dataOk 7 = false) ∧
    recordOk 7 (recordX 1 3 [1, 2, 3]) ∧
    (started (building zeroHeader [okQuestion] [recordX 1 3 [1, 2, 3]])).req =
      building zeroHeader [okQuestion] [recordX 1 3 [1, 2, 3]] ∧
    questionOk okQuestion ∧ ¬ questionOk badQuestion ∧
    Instr.hdrEnc ≠ .rrEnc ∧ Instr.hdrEnc ≠ .msgBuild := by
  unfold questionOk recordOk labelsOk; decide

/-- At TYPE_A 7 the A record of T61 is accepted, and one of type 7 with 3 bytes is not. -/
theorem test_block_type_code :
    let reply := fun ty =>
      stepWithin { Config.block with typeA := 7 }
        (started { blankReq with op := some 0x6, rr := some (recordX ty 3 [1, 2, 3]) })
    (match reply 1 with | .next t => t.rsp.status = some .ok | _ => False) ∧
    (match reply 7 with | .next t => t.rsp = failed .invalidRData | _ => False) := ⟨rfl, rfl⟩

theorem witness_EveryBlockKeepsTheInvariant :
    (started rootRequest).Inv ∧
    ∃ t, stepWithin { Config.block with typeA := 7 } (started rootRequest) = .next t :=
  ⟨witness_StepKeepsTheInvariant.1, _, rfl⟩

theorem witness_HostMovesWriteOnlyTheRequest :
    State.reset.running = false ∧ requestComplete rootRequest = true ∧
    requestComplete State.reset.req = false := by decide

end Sys2Proof.Tests
end

section
/-! SUPPORT. The parameters of a block (00_scope.md R6): what its `TYPE_A` is checked against, and
the invariant of a block with any parameters. -/

namespace Sys2Proof.Machine

/-! ### A step at unbounded ports -/

/-- The operation that a code selects is of a row of the table (30_encoding.md R66). -/
theorem decodeOp_wellFormed (w : U4) : (decodeOp w).wellFormed = true := by
  revert w; decide

/-- Unbounded ports take every request and every output, so only `TYPE_A` is left of the block. -/
theorem stepWithin_unbounded {b : Block} {s : State} {w : U4} (hb : b.ports = Ports.unbounded)
    (hr : s.running = true) (ho : s.req.op = some w) :
    stepWithin b s = execAt b.typeA (decodeOp w) s := by
  have hfits : requestFits Ports.unbounded s.req = true := requestFits_ports s.req
  have hbound : boundOutput Ports.unbounded (execAt b.typeA (decodeOp w) s) =
      execAt b.typeA (decodeOp w) s := boundOutput_ports _
  simp only [stepWithin, hr, fetch, ho, Option.map_some, hb, hfits, if_true, hbound]

/-! ### The encoders of records, one equation for each way they end -/

/-- An error of the name comes before the data checks (44_resource_record.md R126). -/
theorem rrEnc_name_error (typeA : U16) {r : ResourceRecord} (h : ¬ labelsOk (nameLabels r.name)) :
    rrEnc typeA r = .error .invalidLabel := by
  rcases rrEnc_cases typeA r with ⟨_, e⟩ | ⟨hn, _, _⟩ | ⟨⟨hn, _⟩, _⟩
  · exact e
  · exact absurd hn h
  · exact absurd hn h

/-- A record whose data is not acceptable at `typeA` (44_resource_record.md R125). -/
theorem rrEnc_data_error {typeA : U16} {r : ResourceRecord} (h : labelsOk (nameLabels r.name))
    (hd : r.dataOk typeA = false) : rrEnc typeA r = .error .invalidRData := by
  rcases rrEnc_cases typeA r with ⟨hn, _⟩ | ⟨_, _, e⟩ | ⟨⟨_, hk⟩, _⟩
  · exact absurd h hn
  · exact e
  · rw [hd] at hk; cases hk

/-- A question that fails ends the message before any record is looked at (45_message.md R142). -/
theorem msgBuild_question_error (typeA : U16) (h : Header) {qs : List Question} {q : Question}
    (rs : List ResourceRecord) (hq : q ∈ qs) (hn : ¬ questionOk q) :
    msgBuild typeA h qs rs = .error .invalidLabel := by
  rw [msgBuild, encodeQuestions_error hq hn]; rfl

/-- After questions that all encode, the first record that fails gives its error (45_message.md
R142). -/
theorem msgBuild_record_error {typeA : U16} (h : Header) {qs : List Question}
    {a : List ResourceRecord} {r : ResourceRecord} (c : List ResourceRecord) {e : ErrorKind}
    (hq : ∀ q ∈ qs, questionOk q) (ha : ∀ x ∈ a, recordOk typeA x)
    (he : rrEnc typeA r = .error e) : msgBuild typeA h qs (a ++ r :: c) = .error e := by
  rw [msgBuild, encodeQuestions_ok hq, encodeRecords_first_error ha he]; rfl

/-- A message all of whose parts encode (45_message.md R135). -/
theorem msgBuild_ok {typeA : U16} (h : Header) {qs : List Question} {rs : List ResourceRecord}
    (hq : ∀ q ∈ qs, questionOk q) (hr : ∀ r ∈ rs, recordOk typeA r) :
    msgBuild typeA h qs rs = .ok (wireHeader h ++ wireQuestions qs ++ wireRecords rs) := by
  rw [msgBuild, encodeQuestions_ok hq, encodeRecords_ok hr, ← hdrEnc_eq]; rfl

/-! ### The operations at a `TYPE_A` -/

theorem execAt_rrEnc (typeA : U16) {s : State} {r : ResourceRecord} (e : s.req.rr = some r) :
    execAt typeA .rrEnc s = conclude (encoded (rrEnc typeA r)) s := execRrEncAt_eq typeA e

theorem execAt_msgBuild (typeA : U16) {s : State} {h : Header} {qs : List Question}
    {rs : List ResourceRecord} (eh : s.req.h = some h) (eq : s.req.qlist = some qs)
    (er : s.req.rrlist = some rs) :
    execAt typeA .msgBuild s = conclude (encoded (msgBuild typeA h qs rs)) s :=
  execMsgBuildAt_eq typeA eh eq er

/-- Only the two operations that encode records look at `TYPE_A` (44_resource_record.md R134). -/
theorem execAt_eq_exec (typeA : U16) {i : Instr} (s : State) (hr : i ≠ .rrEnc)
    (hm : i ≠ .msgBuild) : execAt typeA i s = exec i s := by
  cases i with
  | rrEnc => exact absurd rfl hr
  | msgBuild => exact absurd rfl hm
  | _ => rfl

/-! ### The invariant -/

/-- Whatever an operation of the table answers is a consistent response (10_state.md R29). -/
theorem ResponseOf.consistent {i : Instr} {r : Rsp} (hi : i.wellFormed = true)
    (h : ResponseOf i r) : r.Consistent := by
  rcases h with ⟨e, rfl, _⟩ | ⟨status, _, written, counts, lengths⟩
  · have hnone : (failed e).noResults := holdsExactly_of (fs := []) rfl
    exact ⟨fun _ => hnone, fun _ _ => hnone, by simp, by simp, by simp⟩
  · exact ⟨by simp [status], by simp [status], fun _ => ⟨i, hi, written⟩, counts, lengths⟩

/-- A completed transaction leaves no running one, so only its response is to be looked at. -/
theorem inv_answered (s : State) {r : Rsp} (h : r.Consistent) : (s.answered r).Inv :=
  ⟨h, by simp⟩

/-! ### The obligations -/

/-- Settles O52: each encoder of records ends as its `rrEnc` or `msgBuild` at the block's `TYPE_A`
does. -/
theorem recordsAreCheckedAtTheTypeCodeOfTheBlock :
    Obligations.RecordsAreCheckedAtTheTypeCodeOfTheBlock := by
  refine ⟨fun b s w => stepWithin_unbounded, fun typeA s r er => ?_,
    fun typeA s h qs rs eh eq er => ?_, fun typeA i s => execAt_eq_exec typeA s, execAt_default⟩
  · rw [execAt_rrEnc typeA er]
    exact ⟨fun hn => conclude_encoded_error (rrEnc_name_error typeA hn) s,
      fun hn hd => conclude_encoded_error (rrEnc_data_error hn hd) s,
      fun hr => conclude_encoded_ok (rrEnc_ok hr) s⟩
  · rw [execAt_msgBuild typeA eh eq er]
    refine ⟨?question, fun hq => ⟨?record, ?ok⟩⟩
    case question =>
      rintro ⟨q, hq, hn⟩
      exact conclude_encoded_error (msgBuild_question_error typeA h rs hq hn) s
    case record =>
      rintro a r c rfl ha
      exact ⟨fun hn => conclude_encoded_error
          (msgBuild_record_error h c hq ha (rrEnc_name_error typeA hn)) s,
        fun hn hd => conclude_encoded_error
          (msgBuild_record_error h c hq ha (rrEnc_data_error hn hd)) s⟩
    case ok => exact fun hr => conclude_encoded_ok (msgBuild_ok h hq hr) s

/-- Settles O53: a step waits, or answers with a response of its operation, and every such response
is consistent. -/
theorem everyBlockKeepsTheInvariant : Obligations.EveryBlockKeepsTheInvariant := by
  intro b s t hs ht
  rcases stepWithin_next ht with ⟨_, rfl⟩ | ⟨w, _, _, _, hx, _⟩
  · exact hs
  · obtain ⟨r, rfl, hr⟩ := execAt_next hx
    exact inv_answered s (hr.consistent (decodeOp_wellFormed w))

end Sys2Proof.Machine
end

section
/-! SUPPORT. The state of the block (10_state.md): what an operation and a step leave of it, the
moves of the host, runs, and the capacities of the ports. -/

namespace Sys2Proof.Machine

/-! ### Responses -/

/-- Which result fields a response holds, by its status (10_state.md R29). -/
theorem ResponseOf.rspHolds_iff {i : Instr} {r : Rsp} {f : RspField} (h : ResponseOf i r)
    (hf : f ∈ resultFields) :
    rspHolds r f = true ↔ r.status = some .ok ∧ f ∈ writesOf i := by
  rcases h with ⟨e, rfl, _⟩ | ⟨status, _, written, _, _⟩
  · have hnone : (failed e).holdsExactly [] := holdsExactly_of rfl
    simp [hnone f hf]
  · simp [status, written f hf]

/-- STATUS always holds a value (10_state.md R29). -/
theorem ResponseOf.holds_status {i : Instr} {r : Rsp} (h : ResponseOf i r) :
    rspHolds r .status = true := by
  rcases h with ⟨e, rfl, _⟩ | ⟨status, _, _, _, _⟩
  · rfl
  · simp [rspHolds, status]

/-! ### What an operation looks at -/

/-- Where `x` answers a next state, `y` answers one with the same response. -/
def SameResponse (x y : Result) : Prop := ∀ t, x = .next t → ∃ t', y = .next t' ∧ t'.rsp = t.rsp

/-- The end of an operation puts its response into any state alike. -/
theorem conclude_sameResponse (r : Codec Rsp) (s s' : State) :
    SameResponse (conclude r s) (conclude r s') := by
  intro t ht
  cases r with
  | ok results => cases ht; exact ⟨_, rfl, rfl⟩
  | error e => cases ht; exact ⟨_, rfl, rfl⟩

theorem operand_sameResponse {α : Type} {o o' : Option α} {k k' : α → Result} (ho : o = o')
    (hk : ∀ a, SameResponse (k a) (k' a)) : SameResponse (operand o k) (operand o' k') := by
  subst ho
  cases o with
  | some a => exact hk a
  | none => intro t ht; cases ht

theorem withBufferAt_sameResponse {s s' : State} (hb : s.req.ibuf = s'.req.ibuf)
    (ho : s.req.off = s'.req.off) (r : Bytes → Nat → Codec Rsp) :
    SameResponse (withBufferAt s fun buf off => conclude (r buf off) s)
      (withBufferAt s' fun buf off => conclude (r buf off) s') :=
  operand_sameResponse hb fun _ => operand_sameResponse ho fun _ => conclude_sameResponse _ s s'

/-- An operation looks at the fields of its format only (10_state.md R23, 30_encoding.md R67). -/
theorem exec_sameResponse {i : Instr} {s s' : State}
    (h : agreeOn (readsOf (formatOf i)) s.req s'.req) : SameResponse (exec i s) (exec i s') := by
  obtain ⟨header, name, question, record, questions, records, buffer, offset⟩ := h
  have concluded := fun r => conclude_sameResponse r s s'
  cases i with
  | hdrEnc => exact operand_sameResponse (header (by decide)) fun _ => concluded _
  | hdrDec => exact operand_sameResponse (buffer (by decide)) fun _ => concluded _
  | nameEnc => exact operand_sameResponse (name (by decide)) fun _ => concluded _
  | nameDec => exact withBufferAt_sameResponse (buffer (by decide)) (offset (by decide)) _
  | qEnc => exact operand_sameResponse (question (by decide)) fun _ => concluded _
  | qDec => exact withBufferAt_sameResponse (buffer (by decide)) (offset (by decide)) _
  | rrEnc => exact operand_sameResponse (record (by decide)) fun _ => concluded _
  | rrDec => exact withBufferAt_sameResponse (buffer (by decide)) (offset (by decide)) _
  | msgBuild =>
    exact operand_sameResponse (header (by decide)) fun _ =>
      operand_sameResponse (questions (by decide)) fun _ =>
        operand_sameResponse (records (by decide)) fun _ => concluded _
  | msgParse => exact operand_sameResponse (buffer (by decide)) fun _ => concluded _
  | reservedAB op => exact concluded (.error .illegalOperation)
  | reservedCF op => exact concluded (.error .illegalOperation)

/-! ### The step, by the state before it -/

theorem step_waiting {s : State} (hw : s.running = false) : step s = .next s := by
  simp [step, stepWithin, hw]

theorem step_running {s : State} {w : U4} (hr : s.running = true) (ho : s.req.op = some w) :
    step s = exec (decodeOp w) s :=
  (stepWithin_unbounded (b := Config.block) rfl hr ho).trans (execAt_default _ _)

/-- A complete request runs the operation it selects, which answers (10_state.md R41). -/
theorem step_complete {s : State} (hr : s.running = true) (hc : requestComplete s.req = true) :
    ∃ w r, s.req.op = some w ∧ step s = exec (decodeOp w) s ∧
      exec (decodeOp w) s = .next (s.answered r) := by
  obtain ⟨w, ho, held⟩ := (requestComplete_iff _).mp hc
  obtain ⟨r, hx, _⟩ := exec_response held
  exact ⟨w, r, ho, step_running hr ho, hx⟩

/-- An incomplete request is refused (log entry 5). -/
theorem step_incomplete {s : State} (hr : s.running = true) (hc : requestComplete s.req = false) :
    step s = .refused .incompleteRequest := by
  rcases step_cases s with ⟨hw, _⟩ | ⟨_, _, hs⟩ | ⟨w, _, ho, hs⟩
  · rw [hr] at hw; cases hw
  · exact hs
  · refine hs.trans (exec_incomplete fun held => ?_)
    rw [(requestComplete_iff _).mpr ⟨w, ho, held⟩] at hc
    cases hc

/-! ### The moves of the host -/

theorem hostWrite_waiting {s : State} (hw : s.running = false) (w : HostWrite) :
    hostWrite w s = .next { s with req := writeReq w s.req } := by
  simp [hostWrite, hw]

theorem hostStart_complete {s : State} (hw : s.running = false)
    (hc : requestComplete s.req = true) : hostStart s = .next { s with running := true } := by
  simp [hostStart, hw, hc]

theorem hostStart_incomplete {s : State} (hw : s.running = false)
    (hc : requestComplete s.req = false) : hostStart s = .refused .incompleteRequest := by
  simp [hostStart, hw, hc]

theorem present_complete {s : State} {r : Req} (hw : s.running = false)
    (hc : requestComplete r = true) :
    present r s = .next { s with req := r, running := true } := by
  simp [present, hostStart, hw, hc]

theorem present_incomplete {s : State} {r : Req} (hw : s.running = false)
    (hc : requestComplete r = false) : present r s = .refused .incompleteRequest := by
  simp [present, hostStart, hw, hc]

theorem hostWrite_next {s t : State} {w : HostWrite} (h : hostWrite w s = .next t) :
    s.running = false ∧ t = { s with req := writeReq w s.req } := by
  cases hw : s.running with
  | true => simp [hostWrite, hw] at h
  | false => rw [hostWrite_waiting hw] at h; cases h; exact ⟨rfl, by rw [hw]⟩

theorem hostStart_next {s t : State} (h : hostStart s = .next t) :
    s.running = false ∧ requestComplete s.req = true ∧ t = { s with running := true } := by
  cases hw : s.running with
  | true => simp [hostStart, hw] at h
  | false =>
    cases hc : requestComplete s.req with
    | true => rw [hostStart_complete hw hc] at h; cases h; exact ⟨rfl, rfl, rfl⟩
    | false => rw [hostStart_incomplete hw hc] at h; cases h

theorem present_next {r : Req} {s t : State} (h : present r s = .next t) :
    s.running = false ∧ requestComplete r = true ∧ t = { s with req := r, running := true } := by
  cases hw : s.running with
  | true => simp [present, hw] at h
  | false =>
    cases hc : requestComplete r with
    | true => rw [present_complete hw hc] at h; cases h; exact ⟨rfl, rfl, rfl⟩
    | false => rw [present_incomplete hw hc] at h; cases h

/-- What the host's read of a field of a waiting block raises (10_state.md R29). -/
theorem faultOf_readRsp {α : Type} {s : State} (hw : s.running = false) (f : RspField)
    (o : Option α) :
    faultOf (readRsp f o s) = if o.isSome = true then none else some (.noValue f) := by
  cases o with
  | some v => simp [readRsp, hw, faultOf]
  | none => simp [readRsp, hw, faultOf]

theorem readFault_waiting {s : State} (hw : s.running = false) (f : RspField) :
    readFault s f = if rspHolds s.rsp f = true then none else some (.noValue f) := by
  cases f <;> exact faultOf_readRsp hw _ _

/-- A response that no transaction has written yet (10_state.md R43). -/
theorem blank_consistent : Rsp.blank.Consistent := by
  have hnone : Rsp.blank.noResults := holdsExactly_of (fs := []) rfl
  exact ⟨fun _ => hnone, fun _ _ => hnone, by simp, by simp, by simp⟩

/-- The state after reset waits, so there is no request to look at (10_state.md R43). -/
theorem reset_inv : State.reset.Inv := ⟨blank_consistent, by simp [State.reset]⟩

/-! ### Transactions and runs -/

/-- A whole transaction is the step of the request it presents (10_state.md R20). -/
theorem transact_next {r : Req} {s t : State} (h : transact r s = .next t) :
    s.running = false ∧ requestComplete r = true ∧
      step { s with req := r, running := true } = .next t := by
  cases hp : present r s with
  | next u =>
    obtain ⟨hw, hc, rfl⟩ := present_next hp
    exact ⟨hw, hc, by simpa only [transact, hp] using h⟩
  | fault f => simp [transact, hp] at h
  | refused x => simp [transact, hp] at h

theorem transact_waiting {r : Req} {s : State} (hw : s.running = false)
    (hc : requestComplete r = true) :
    transact r s = step { s with req := r, running := true } := by
  rw [transact, present_complete hw hc]

/-- Two states with the same request agree on every field. -/
theorem agreeOn_refl (fs : List ReqField) (r : Req) : agreeOn fs r r := by
  simp [agreeOn]

/-- The state after a transaction, whatever waiting state it starts from: nothing is carried from
one transaction to the next (10_state.md R20). -/
theorem transact_complete {r : Req} (hc : requestComplete r = true) :
    ∃ a, ∀ s : State, s.running = false →
      transact r s = .next { req := r, rsp := a, running := false } := by
  obtain ⟨w, a, ho, _, hx⟩ :=
    step_complete (s := { State.reset with req := r, running := true }) rfl hc
  refine ⟨a, fun s hw => ?_⟩
  obtain ⟨t, ht, same⟩ := exec_sameResponse
    (s' := { s with req := r, running := true }) (agreeOn_refl _ r) _ hx
  obtain ⟨a', rfl, _⟩ := exec_next ht
  cases same
  exact (transact_waiting hw hc).trans ((step_running rfl ho).trans ht)

/-! ### Port capacities -/

theorem questionFits_iff (p : Ports) (q : Question) :
    questionFits p q = true ↔ ¬ exceeds p.nameCap q.name.length := within_iff _ _

theorem recordFits_iff (p : Ports) (r : ResourceRecord) :
    recordFits p r = true ↔
      ¬ (exceeds p.nameCap r.name.length ∨ exceeds p.rdataCap r.rdata.length) := by
  simp only [recordFits, Bool.and_eq_true, within_iff, not_or]

theorem cursorFits_iff (cap : Option Nat) (off : Nat) :
    cursorFits cap off = true ↔ ∀ w, cap = some w → off < 2 ^ w := by
  cases cap with
  | none => simp [cursorFits]
  | some w => simp [cursorFits]

/-- The ports take exactly the requests none of whose fields exceeds its port (10_state.md R27). -/
theorem requestFits_iff (p : Ports) (r : Req) : requestFits p r = true ↔ ¬ exceedsPorts p r := by
  simp only [requestFits, exceedsPorts, Bool.and_eq_true, ifHeld_iff, List.all_eq_true, within_iff,
    questionFits_iff, recordFits_iff, cursorFits_iff, not_or, not_exists, not_and, and_assoc,
    exists_and_left, Nat.not_le]

theorem outputFits_iff (p : Ports) (r : Rsp) :
    outputFits p r = true ↔ ∀ o, r.obuf = some o → ¬ exceeds p.outCap o.length := by
  simp only [outputFits, ifHeld_iff, within_iff]

/-- The step of a running transaction at a block with any parameters. -/
theorem stepWithin_running {b : Block} {s : State} {i : Instr} (hr : s.running = true)
    (hi : fetch s = some i) :
    stepWithin b s = if requestFits b.ports s.req = true
      then boundOutput b.ports (execAt b.typeA i s) else .refused .requestExceedsCapacity := by
  simp only [stepWithin, hr, hi]

/-! ### Returned offsets -/

theorem nameDec_newoff_le {buf : Bytes} {off : Nat} {r : Bytes × Nat}
    (h : nameDec buf off = .ok r) : r.2 ≤ buf.length := by
  obtain ⟨p, ls, t, _, _, hp, hc, rfl⟩ := nameDec_ok h
  simp only [List.length_append, hp, hc]
  omega

theorem qDec_newoff_le {buf : Bytes} {off : Nat} {r : Question × Nat}
    (h : qDec buf off = .ok r) : r.2 ≤ buf.length := by
  obtain ⟨p, ls, qt, qc, t, _, hp, rfl, _, hc⟩ := qDec_ok h
  simp only [List.length_append, hp, hc]
  omega

theorem rrDec_newoff_le {buf : Bytes} {off : Nat} {r : ResourceRecord × Nat}
    (h : rrDec buf off = .ok r) : r.2 ≤ buf.length := by
  rcases rrDec_cases buf off with ⟨_, _, e⟩ | e | ⟨p, ls, x, t, _, _, _, hp, rfl, e⟩
  · rw [e] at h; cases h
  · rw [e] at h; cases h
  · rw [e] at h
    cases h
    simp only [List.length_append, hp]
    omega

/-- A decoder whose offsets stay in the buffer answers one that does (10_state.md R40). -/
theorem withBufferAt_newoff_le {α : Type} {dec : Bytes → Nat → Codec (α × Nat)}
    {f : α × Nat → Rsp} {s t : State} {n : Nat}
    (hle : ∀ {buf off r}, dec buf off = .ok r → r.2 ≤ buf.length)
    (hf : ∀ r, (f r).newoff = some r.2)
    (h : withBufferAt s (fun buf off => conclude ((dec buf off).map f) s) = .next t)
    (hn : t.rsp.newoff = some n) : ∃ buf, s.req.ibuf = some buf ∧ n ≤ buf.length := by
  obtain ⟨buf, hb, h⟩ := operand_eq_next h
  obtain ⟨off, _, h⟩ := operand_eq_next h
  change conclude ((dec buf off).map f) s = .next t at h
  cases hd : dec buf off with
  | error e => rw [conclude_map_error hd] at h; cases h; cases hn
  | ok r =>
    rw [conclude_map_ok hd] at h
    cases h
    cases (hf r).symm.trans hn
    exact ⟨buf, hb, hle hd⟩

/-- Every offset that an operation returns is in its buffer or just past its end (10_state.md
R40). -/
theorem execAt_newoff_le {typeA : U16} {i : Instr} {s t : State} {n : Nat}
    (h : execAt typeA i s = .next t) (hn : t.rsp.newoff = some n) :
    ∃ buf, s.req.ibuf = some buf ∧ n ≤ buf.length := by
  have written : RspField.newoff ∈ writesOf i := by
    obtain ⟨r, rfl, response⟩ := execAt_next h
    rw [answered_rsp] at hn
    exact ((response.rspHolds_iff (by decide)).mp (by simp [rspHolds, hn])).2
  cases i with
  | nameDec => exact withBufferAt_newoff_le nameDec_newoff_le (fun _ => rfl) h hn
  | qDec => exact withBufferAt_newoff_le qDec_newoff_le (fun _ => rfl) h hn
  | rrDec => exact withBufferAt_newoff_le rrDec_newoff_le (fun _ => rfl) h hn
  | _ => simp [writesOf] at written

/-- An admissible cursor holds every offset of a buffer that the port takes (10_state.md R40). -/
theorem cursorFits_of_admissible {p : Ports} {n len : Nat} (hp : p.admissible = true)
    (hb : within p.bufCap len = true) (hn : n ≤ len) : cursorFits p.cursorW n = true := by
  rw [cursorFits_iff]
  intro w hw
  cases hc : p.bufCap with
  | none => simp [Ports.admissible, hw, hc] at hp
  | some c =>
    have hlen : len ≤ c := by simpa [within, hc] using hb
    have hcap : c < 2 ^ w := by
      simp only [Ports.admissible, hw, hc, Bool.and_eq_true, decide_eq_true_eq] at hp
      exact hp.2
    omega

/-- A name at or past the end of the buffer (42_name.md R104). -/
theorem nameDec_past_end {buf : Bytes} {off : Nat} (h : buf.length ≤ off) :
    nameDec buf off = .error .truncated := by
  have hread : memRead 8 buf off = .error .truncated := memRead_error (by omega)
  simp only [nameDec, nameDecLoop, hread]

/-! ### The obligations -/

/-- Settles O45: `step` is the step of one of the blocks that keep the invariant. -/
theorem stepKeepsTheInvariant : Obligations.StepKeepsTheInvariant :=
  everyBlockKeepsTheInvariant Config.block

/-- Settles O19: the three decoders begin with the name, whose first read fails. -/
theorem offsetPastTheEndIsTruncated : Obligations.OffsetPastTheEndIsTruncated := by
  intro s buf off hb ho hend
  have hname := nameDec_past_end hend
  rw [exec_nameDec hb ho, exec_qDec hb ho, exec_rrDec hb ho]
  exact ⟨conclude_map_error hname _ s, conclude_map_error (qDec_name_error hname) _ s,
    conclude_map_error (rrDec_name_error hname) _ s⟩

/-- Settles O38: a next state of an operation is the state before with another response. -/
theorem noOperationWritesTheRequest : Obligations.NoOperationWritesTheRequest := by
  intro i s t h
  obtain ⟨r, rfl, _⟩ := exec_next h
  refine ⟨rfl, rfl, fun buf buf' a hb hb' => ?_⟩
  cases hb.symm.trans hb'
  rfl

/-- Settles O39, by the two forms of a response. -/
theorem resultFieldsFollowTheStatus : Obligations.ResultFieldsFollowTheStatus := by
  intro i s t h
  obtain ⟨r, rfl, response⟩ := exec_next h
  rcases response with ⟨e, he, _⟩ | ⟨status, _, written, _, _⟩
  · exact .inr ⟨e, he⟩
  · exact .inl ⟨status, written⟩

/-- Settles O41: an operation looks at the fields of its format only. -/
theorem responseDependsOnItsOperandsOnly : Obligations.ResponseDependsOnItsOperandsOnly :=
  fun _ _ _ t h => exec_sameResponse h t

/-- Settles O43: a waiting block and a complete request have a next state. -/
theorem stepStopsOnlyOnIncompleteRequests : Obligations.StepStopsOnlyOnIncompleteRequests := by
  intro s
  cases hr : s.running with
  | false =>
    simp [step_waiting hr]
  | true =>
    cases hc : requestComplete s.req with
    | true =>
      obtain ⟨w, r, _, hs, hx⟩ := step_complete hr hc
      simp [hs, hx]
    | false => simp [step_incomplete hr hc]

/-- Settles O46: a write leaves the block waiting, a start needs a complete request, and neither
touches the response. -/
theorem hostMovesKeepTheInvariant : Obligations.HostMovesKeepTheInvariant := by
  rintro s ⟨response, _⟩
  refine ⟨fun w t h => ?_, fun t h => ?_, fun r t h => ?_, reset_inv⟩
  · obtain ⟨hw, rfl⟩ := hostWrite_next h
    exact ⟨response, by simp [hw]⟩
  · obtain ⟨_, hc, rfl⟩ := hostStart_next h
    exact ⟨response, fun _ => hc⟩
  · obtain ⟨_, hc, rfl⟩ := present_next h
    exact ⟨response, fun _ => hc⟩

/-- Settles O48: the block waits with a response of the request's operation. -/
theorem hostReadsExactlyTheWrittenFields : Obligations.HostReadsExactlyTheWrittenFields := by
  intro r s t w ho h
  obtain ⟨_, _, hs⟩ := transact_next h
  rw [step_running rfl ho] at hs
  obtain ⟨a, rfl, response⟩ := exec_next hs
  refine ⟨?_, fun f hf => ?_⟩
  · rw [readFault_waiting rfl, answered_rsp, if_pos response.holds_status]
  · exact (readFault_waiting rfl f).trans (if_congr (response.rspHolds_iff hf) rfl rfl)

/-- Settles O49, by induction on the requests: each transaction leaves a waiting block and the
response that it leaves after reset. -/
theorem runIsTheSequenceOfItsTransactions : Obligations.RunIsTheSequenceOfItsTransactions := by
  intro rs
  induction rs with
  | nil => exact fun s hw _ => ⟨s, [], rfl, hw, rfl, by simp⟩
  | cons r rs ih =>
    intro s hw hc
    obtain ⟨hr, hrs⟩ := List.forall_mem_cons.mp hc
    obtain ⟨a, ha⟩ := transact_complete hr
    obtain ⟨u, obs, hrun, hu, hreq, hrsp⟩ := ih { req := r, rsp := a, running := false } rfl hrs
    refine ⟨u, (r, a) :: obs, ?_, hu, by simp [hreq], List.forall_mem_cons.mpr ⟨?_, hrsp⟩⟩
    · simp only [runRequests, ha s hw, hrun]
    · exact ⟨_, ha State.reset rfl, rfl⟩

/-- Settles O50: the two tests of a step at its ports, each on either side. -/
theorem capacitiesRefuseAndChangeNothingElse :
    Obligations.CapacitiesRefuseAndChangeNothingElse := by
  intro b s i hr hi
  rw [stepWithin_running hr hi]
  refine ⟨fun large => if_neg fun fits => (requestFits_iff _ _).mp fits large,
    fun small t ht => ?_⟩
  rw [if_pos ((requestFits_iff _ _).mpr small), ht, boundOutput]
  refine ⟨?_, fun short => if_pos ((outputFits_iff _ _).mpr short)⟩
  rintro ⟨o, ho, long⟩
  exact if_neg fun fits => (outputFits_iff _ _).mp fits o ho long

/-- Settles O51: the offset is within the buffer, the buffer within its port, and the port within
the cursor. -/
theorem returnedOffsetsFitTheCursor : Obligations.ReturnedOffsetsFitTheCursor := by
  intro b s t n admissible hr ht hn
  rcases stepWithin_next ht with ⟨hw, _⟩ | ⟨w, _, _, fits, hx, _⟩
  · rw [hr] at hw; cases hw
  · obtain ⟨buf, hb, hle⟩ := execAt_newoff_le hx hn
    have hport : within b.ports.bufCap buf.length = true := by
      simp only [requestFits, Bool.and_eq_true, ifHeld_iff] at fits
      exact fits.1.2 buf hb
    exact cursorFits_of_admissible admissible hport hle

/-- Settles O4: a placed word makes a complete request and starts it. -/
theorem placedWordRunsNext : Obligations.PlacedWordRunsNext := by
  intro s nbits w
  have hc : requestComplete (s.withFetchWord nbits w).req = true := requestComplete_placeOp _ _
  obtain ⟨op, r, ho, hs, hx⟩ := step_complete (withFetchWord_running s nbits w) hc
  cases ho
  exact ⟨_, _, rfl, hs, hx⟩

/-- Settles O54, move by move. -/
theorem hostMovesWriteOnlyTheRequest : Obligations.HostMovesWriteOnlyTheRequest := by
  intro s hw
  exact ⟨hostWrite_waiting hw, hostStart_complete hw, hostStart_incomplete hw,
    fun _ => present_complete hw, fun _ => present_incomplete hw⟩

end Sys2Proof.Machine
end

section
/-! SUPPORT. The bytes that the access primitives store (20_memory.md R50 to R54). -/

namespace Sys2Proof.Machine

/-! ### The bytes of a stored value -/

/-- Cutting a value to a byte makes the mask of 20_memory.md R53. -/
theorem ofNat_and_byteMask (x : Nat) : BitVec.ofNat 8 (x &&& 0xFF) = BitVec.ofNat 8 x := by
  have hmask : x &&& 0xFF = x % 2 ^ 8 := Nat.and_two_pow_sub_one_eq_mod x 8
  apply BitVec.eq_of_toNat_eq
  simp [hmask]

theorem getElem?_be {n i : Nat} (v : Nat) (hi : i < n) :
    (be n v)[i]? = some (BitVec.ofNat 8 (v >>> (8 * (n - 1 - i)))) := by
  simp [be, hi]

/-! ### The output after a store -/

/-- A byte before the stored ones. -/
theorem getElem?_memWrite_before {out : Bytes} {addr a : Nat} (n v : Nat)
    (h : addr ≤ out.length) (ha : a < addr) : (memWrite out addr n v)[a]? = out[a]? := by
  have hin : a < (out.take addr).length := by rwa [List.length_take_of_le h]
  rw [memWrite, List.append_assoc, List.getElem?_append_left hin, List.getElem?_take_of_lt ha]

/-- A byte of the stored ones. -/
theorem getElem?_memWrite_stored {out : Bytes} {addr n i : Nat} (v : Nat)
    (h : addr ≤ out.length) (hi : i < n) :
    (memWrite out addr n v)[addr + i]? = (be n v)[i]? := by
  have hlen : (out.take addr).length = addr := List.length_take_of_le h
  rw [memWrite, List.append_assoc, List.getElem?_append_right (by omega), hlen,
    Nat.add_sub_cancel_left, List.getElem?_append_left (by rwa [be_length])]

/-- A byte after the stored ones. -/
theorem getElem?_memWrite_after {out : Bytes} {addr n a : Nat} (v : Nat)
    (h : addr ≤ out.length) (ha : addr + n ≤ a) : (memWrite out addr n v)[a]? = out[a]? := by
  have hlen : (out.take addr ++ be n v).length = addr + n := by
    rw [List.length_append, List.length_take_of_le h, be_length]
  rw [memWrite, List.getElem?_append_right (by omega), hlen, List.getElem?_drop,
    Nat.add_sub_cancel' ha]

/-- The slice that a store fills. -/
theorem memWrite_slice {out : Bytes} {addr : Nat} (n v : Nat) (h : addr ≤ out.length) :
    ((memWrite out addr n v).drop addr).take n = be n v := by
  have slice := drop_take_middle (out.take addr) (be n v) (out.drop (addr + n))
  rwa [List.length_take_of_le h, be_length] at slice

/-! ### The obligations -/

/-- Settles O8: a read takes the bytes at its offset, whose value is their concatenation. -/
theorem memReadIsBigEndianOrTruncated : Obligations.MemReadIsBigEndianOrTruncated := by
  refine ⟨fun _ _ h => memRead_error h, fun _ _ h => memRead_error h,
    fun _ _ h => memRead_error h, fun p t a => ?_, fun p t a b => ?_, fun p t a b c d => ?_⟩
  · rw [memRead_bytes p [a] t rfl, beValue_one]
  · rw [memRead_bytes p [a, b] t rfl, beValue_two]
  · rw [memRead_bytes p [a, b, c, d] t rfl, beValue_four]

/-- Settles O10: a store fills the slice at its address and leaves the bytes on either side. -/
theorem memWriteStoresBigEndianBytes : Obligations.MemWriteStoresBigEndianBytes := by
  refine ⟨fun out addr n v h => ⟨fun i hi => ?_, fun a => getElem?_memWrite_before n v h,
    fun a => getElem?_memWrite_after v h, memWrite_slice n v h⟩, fun v => ?_, fun v => ?_⟩
  · rw [getElem?_memWrite_stored v h hi, getElem?_be v hi, ofNat_and_byteMask]
  · simp only [be_two, ofNat_and_byteMask]
  · simp only [be_four, ofNat_and_byteMask]

/-- Settles O11: both primitives append. -/
theorem emitAppendsOnly : Obligations.EmitAppendsOnly := by
  refine ⟨fun out n v => ⟨emit_eq out n v, ?_⟩, emitBytes_eq, fun out s a ha => ?_⟩
  · rw [emit_eq, List.length_append, be_length]
  · rw [emitBytes_eq, List.getElem?_append_left ha]

/-- Settles O3: the step at unbounded ports adds nothing to its operation. -/
theorem stepRunsTheSelectedOperation : Obligations.StepRunsTheSelectedOperation :=
  fun _ _ => step_running

/-- Settles O9: past the end, or the slice of the buffer. -/
theorem readBytesIsTheSliceOrTruncated : Obligations.ReadBytesIsTheSliceOrTruncated := by
  refine ⟨fun buf off n => readBytes_error, fun p d t => ?_⟩
  exact readBytes_at (List.append_assoc p d t) rfl rfl

end Sys2Proof.Machine
end

section
/-! SUPPORT. The decoder of `REQ.OP` and its encoder are inverse (30_encoding.md R65, R66). -/

namespace Sys2Proof.Machine

open Laws

/-- The code of an operation selects it; a reserved code selects the row that it is well formed
for (30_encoding.md R66). -/
theorem decodeOp_encode {i : Instr} (h : i.wellFormed = true) : decodeOp (encode i) = i := by
  cases i with
  | reservedAB op => exact EncodeDecode.reservedAB op h
  | reservedCF op => exact EncodeDecode.reservedCF op h
  | hdrEnc | hdrDec | nameEnc | nameDec | qEnc | qDec | rrEnc | rrDec | msgBuild | msgParse => rfl

/-- Every value of `REQ.OP` is the code of the row that it selects (30_encoding.md R66). -/
@[simp] theorem encode_decodeOp (w : U4) : encode (decodeOp w) = w := by
  revert w; decide

/-! ### The obligations -/

/-- Settles O6: the decoder and the encoder are inverse, and the decoder gives well-formed
operations only. -/
theorem operationCodesRoundTrip : Obligations.OperationCodesRoundTrip :=
  ⟨fun _ => decodeOp_encode, fun w => ⟨decodeOp_wellFormed w, encode_decodeOp w⟩⟩

/-- Settles O5, by evaluating the decoder at each of its sixteen values. -/
theorem operationCodesSelectTheirRows : Obligations.OperationCodesSelectTheirRows := by
  unfold Obligations.OperationCodesSelectTheirRows
  decide

end Sys2Proof.Machine
end

section
/-! SUPPORT. The header operations (41_header.md), and what a decoder makes of bytes appended to its
buffer. -/

namespace Sys2Proof.Machine

/-! ### The bits of a flag word, from its two bytes -/

theorem testBit_high (a b : Byte) {i j : Nat} (hi : i = j + 8) :
    testBit (a ++ b) i = a.getLsbD j := by
  subst hi
  exact BitVec.getLsbD_append.trans (by simp)

theorem testBit_low (a b : Byte) {i : Nat} (hi : i < 8) : testBit (a ++ b) i = b.getLsbD i :=
  BitVec.getLsbD_append.trans (if_pos hi)

theorem flagField_high (a b : Byte) {lo i : Nat} (n : Nat) (hlo : lo = i + 8) :
    flagField (a ++ b) lo n = a.extractLsb' i n := by
  apply BitVec.eq_of_getLsbD_eq
  intro k hk
  have e : (a ++ b).getLsbD (lo + k) = a.getLsbD (i + k) := testBit_high a b (by omega)
  simp [flagField, hk, e]

theorem flagField_low (a b : Byte) {lo n : Nat} (hn : lo + n ≤ 8) :
    flagField (a ++ b) lo n = b.extractLsb' lo n := by
  apply BitVec.eq_of_getLsbD_eq
  intro k hk
  have e : (a ++ b).getLsbD (lo + k) = b.getLsbD (lo + k) := testBit_low a b (by omega)
  simp [flagField, hk, e]

/-- Every field of a header from its own bytes (41_header.md R92, 30_encoding.md R76). -/
theorem hdrDec_bytes (b0 b1 b2 b3 b4 b5 b6 b7 b8 b9 b10 b11 : Byte) (t : Bytes) :
    hdrDec ([b0, b1, b2, b3, b4, b5, b6, b7, b8, b9, b10, b11] ++ t) = .ok
      { id := b0 ++ b1
        qr := b2.getLsbD 7
        opcode := b2.extractLsb' 3 4
        aa := b2.getLsbD 2
        tc := b2.getLsbD 1
        rd := b2.getLsbD 0
        ra := b3.getLsbD 7
        z := b3.extractLsb' 4 3
        rcode := b3.extractLsb' 0 4
        qdcount := b4 ++ b5
        ancount := b6 ++ b7
        nscount := b8 ++ b9
        arcount := b10 ++ b11 } := by
  have fields := hdrDec_fields (b0 ++ b1) (b2 ++ b3) (b4 ++ b5) (b6 ++ b7) (b8 ++ b9) (b10 ++ b11) t
  simp only [bytes16_append] at fields
  refine fields.trans (congrArg Except.ok ?_)
  simp only [unpackHeader, Header.mk.injEq, true_and, and_true]
  exact ⟨testBit_high _ _ rfl, flagField_high _ _ _ rfl, testBit_high _ _ rfl, testBit_high _ _ rfl,
    testBit_high _ _ rfl, testBit_low _ _ (by decide), flagField_low _ _ (by decide),
    flagField_low _ _ (by decide)⟩

/-- HDR_DEC of a wire form, whatever follows (41_header.md R92). -/
theorem exec_hdrDec_wireHeader {s : State} {h : Header} {t : Bytes}
    (e : s.req.ibuf = some (wireHeader h ++ t)) :
    exec .hdrDec s = .next (s.answered { Rsp.blank with status := some .ok, h := some h }) :=
  (exec_hdrDec e).trans (conclude_map_ok (hdrDec_wireHeader h t) _ s)

/-! ### Bytes appended to the buffer of a decoder that succeeds -/

/-- 41_header.md R98. -/
theorem hdrDec_append {buf : Bytes} {h : Header} (t : Bytes) (e : hdrDec buf = .ok h) :
    hdrDec (buf ++ t) = .ok h := by
  rcases hdrDec_cases buf with ⟨_, e'⟩ | ⟨h', r, rfl, e'⟩
  · cases e'.symm.trans e
  · cases e'.symm.trans e
    rw [List.append_assoc, hdrDec_wireHeader]

/-- 42_name.md R104. -/
theorem nameDec_append {buf : Bytes} {off : Nat} {r : Bytes × Nat} (t : Bytes)
    (e : nameDec buf off = .ok r) : nameDec (buf ++ t) off = .ok r := by
  obtain ⟨name, c⟩ := r
  obtain ⟨p, ls, rest, hk, rfl, rfl, rfl, rfl⟩ := nameDec_ok e
  rw [List.append_assoc, nameDec_wireName p ls (rest ++ t) hk]

/-- 43_question.md R118. -/
theorem qDec_append {buf : Bytes} {off : Nat} {r : Question × Nat} (t : Bytes)
    (e : qDec buf off = .ok r) : qDec (buf ++ t) off = .ok r := by
  obtain ⟨q, c⟩ := r
  obtain ⟨p, ls, qt, qc, rest, hk, rfl, rfl, rfl, rfl⟩ := qDec_ok e
  rw [List.append_assoc, qDec_wire p ls qt qc (rest ++ t) hk]

/-- 44_resource_record.md R128. -/
theorem rrDec_append {buf : Bytes} {off : Nat} {r : ResourceRecord × Nat} (t : Bytes)
    (e : rrDec buf off = .ok r) : rrDec (buf ++ t) off = .ok r := by
  rcases rrDec_cases buf off with ⟨_, _, e'⟩ | e' | ⟨p, ls, x, rest, hk, hn, hd, rfl, rfl, e'⟩
  · cases e'.symm.trans e
  · cases e'.symm.trans e
  · cases e'.symm.trans e
    rw [List.append_assoc, rrDec_wire p ls x (rest ++ t) hk hn hd]

/-- 45_message.md R139. -/
theorem msgParse_append {buf : Bytes} {r : Header × List Question} (t : Bytes)
    (e : msgParse buf = .ok r) : msgParse (buf ++ t) = .ok r := by
  rcases msgParse_cases buf with ⟨h, xs, rest, hk, hn, rfl, e'⟩ | ⟨_, e', _⟩
  · cases e'.symm.trans e
    rw [List.append_assoc, msgParse_raw h xs (rest ++ t) hk hn]
  · cases e'.symm.trans e

/-- A response with STATUS = OK is a decoder's result. -/
theorem conclude_map_status_ok {α : Type} {r : Codec α} {f : α → Rsp} {s u : State}
    (h : conclude (r.map f) s = .next u) (hok : u.rsp.status = some .ok) :
    ∃ a, r = .ok a ∧ u.rsp = { f a with status := some .ok } := by
  cases r with
  | ok a => cases h; exact ⟨a, rfl, rfl⟩
  | error e => cases h; cases hok

/-- Two decodings, the second of which gives whatever result the first gives. -/
theorem conclude_map_sameRsp {α : Type} {r r' : Codec α} {f : α → Rsp} {s s' u : State}
    (hr : ∀ {a}, r = .ok a → r' = .ok a) (h : conclude (r.map f) s = .next u)
    (hok : u.rsp.status = some .ok) :
    ∃ u', conclude (r'.map f) s' = .next u' ∧ u'.rsp = u.rsp := by
  obtain ⟨a, ha, hu⟩ := conclude_map_status_ok h hok
  exact ⟨_, conclude_map_ok (hr ha) f s', hu.symm⟩

/-- A decoder of a buffer, at an operation of format FB. -/
theorem withBuffer_append {α : Type} {dec : Bytes → Codec α} {f : α → Rsp} {s s' u : State}
    {buf t : Bytes} (hdec : ∀ {a}, dec buf = .ok a → dec (buf ++ t) = .ok a)
    (hb : s.req.ibuf = some buf) (hb' : s'.req.ibuf = some (buf ++ t))
    (h : withBuffer s (fun b => conclude ((dec b).map f) s) = .next u)
    (hok : u.rsp.status = some .ok) :
    ∃ u', withBuffer s' (fun b => conclude ((dec b).map f) s') = .next u' ∧ u'.rsp = u.rsp := by
  simp only [withBuffer, hb, hb', operand_some] at h ⊢
  exact conclude_map_sameRsp hdec h hok

/-- A decoder of a buffer from an offset on, at an operation of format FBO. -/
theorem withBufferAt_append {α : Type} {dec : Bytes → Nat → Codec α} {f : α → Rsp}
    {s s' u : State} {buf t : Bytes}
    (hdec : ∀ {off a}, dec buf off = .ok a → dec (buf ++ t) off = .ok a)
    (hb : s.req.ibuf = some buf) (hb' : s'.req.ibuf = some (buf ++ t))
    (ho : s'.req.off = s.req.off)
    (h : withBufferAt s (fun b off => conclude ((dec b off).map f) s) = .next u)
    (hok : u.rsp.status = some .ok) :
    ∃ u', withBufferAt s' (fun b off => conclude ((dec b off).map f) s') = .next u' ∧
      u'.rsp = u.rsp := by
  simp only [withBufferAt, hb, hb', ho, operand_some] at h ⊢
  obtain ⟨off, hoff, h⟩ := operand_eq_next h
  rw [hoff, operand_some]
  exact conclude_map_sameRsp hdec h hok

/-! ### The obligations -/

/-- Settles O12: HDR_ENC outputs the wire form, which is 12 bytes long. -/
theorem hdrEncWritesTheWireHeader : Obligations.HdrEncWritesTheWireHeader :=
  fun _ h e => ⟨exec_hdrEnc e, wireHeader_length h⟩

/-- Settles O13, on either side of the length test. -/
theorem hdrDecReadsEachFieldFromItsBits : Obligations.HdrDecReadsEachFieldFromItsBits := by
  refine ⟨fun s b0 b1 b2 b3 b4 b5 b6 b7 b8 b9 b10 b11 t e => ?_, fun s buf e short => ?_⟩
  · exact (exec_hdrDec e).trans
      (conclude_map_ok (hdrDec_bytes b0 b1 b2 b3 b4 b5 b6 b7 b8 b9 b10 b11 t) _ s)
  · exact (exec_hdrDec e).trans (conclude_map_error (hdrDec_short short) _ s)

/-- Settles O14: the decoder takes the header back from its wire form. -/
theorem headerSurvivesEncodeThenDecode : Obligations.HeaderSurvivesEncodeThenDecode := by
  intro s s' h t eh eb
  rw [hdrEnc_eq] at eb ⊢
  exact ⟨exec_hdrEnc eh, exec_hdrDec_wireHeader eb⟩

/-- Settles O15: 12 bytes or more begin with the wire form of a header. -/
theorem headerBytesSurviveDecodeThenEncode : Obligations.HeaderBytesSurviveDecodeThenEncode := by
  intro s b e long
  obtain ⟨h, t, rfl⟩ := exists_wireHeader long
  refine ⟨h, exec_hdrDec_wireHeader e, fun s' e' => ?_⟩
  rw [List.take_left' (wireHeader_length h)]
  exact exec_hdrEnc e'

/-- Settles O36, decoder by decoder. -/
theorem decodersIgnoreTrailingBytes : Obligations.DecodersIgnoreTrailingBytes := by
  rintro i decoder s s' buf t u hb hb' ho h hok
  rcases decoder with rfl | rfl | rfl | rfl | rfl
  · exact withBuffer_append (hdrDec_append t) hb hb' h hok
  · exact withBufferAt_append (nameDec_append t) hb hb' ho h hok
  · exact withBufferAt_append (qDec_append t) hb hb' ho h hok
  · exact withBufferAt_append (rrDec_append t) hb hb' ho h hok
  · exact withBuffer_append (msgParse_append t) hb hb' h hok

end Sys2Proof.Machine
end

section
/-! SUPPORT. The name operations (42_name.md): what they answer on their operands, where the decoder
stops, and the wire form of a name, which gives its labels and its length. -/

namespace Sys2Proof.Machine

/-! ### Pieces -/

theorem split_join_self {ls : List Bytes} (hne : ls ≠ []) (h : labelsClean ls) :
    split (join ls) = ls := by
  cases ls with
  | nil => exact absurd rfl hne
  | cons l ls => exact split_join_clean h

/-- Every separator byte ends a piece, and the end of the name ends the last one. -/
theorem length_split (s : Bytes) : (split s).length = s.count Config.sep + 1 := by
  induction s with
  | nil => rfl
  | cons b s ih =>
    by_cases hb : b = Config.sep
    · rw [hb, split_sep, List.length_cons, ih, List.count_cons_self]
    · obtain ⟨l, ls, h⟩ := split_cases s
      rw [split_byte hb h, List.count_cons_of_ne hb, ← ih, h]
      rfl

theorem join_cons {ls : List Bytes} (l : Bytes) (hne : ls ≠ []) :
    join (l :: ls) = l ++ Config.sep :: join ls := by
  cases ls with
  | nil => exact absurd rfl hne
  | cons l' ls => exact join_cons_cons l l' ls

@[simp] theorem nameLabels_nil : nameLabels [] = [] := rfl

theorem nameLabels_of_ne_nil {s : Bytes} (h : s ≠ []) : nameLabels s = split s := if_neg h

/-! ### The wire form of a name -/

theorem lengthByte_ne_zero {l : Bytes} (h : labelOk l = true) :
    BitVec.ofNat 8 l.length ≠ 0x00#8 := by
  intro hz
  have hlen := lengthByte_toNat h
  have := (labelOk_iff l).mp h
  rw [hz, BitVec.toNat_ofNat] at hlen
  omega

/-- The length bytes of a wire form tell its labels: none of them is the terminator, and each gives
the length of its own label. -/
theorem wireLabels_inj {a b : List Bytes} {t t' : Bytes} (ha : labelsOk a) (hb : labelsOk b)
    (e : wireLabels a ++ 0x00#8 :: t = wireLabels b ++ 0x00#8 :: t') : a = b := by
  induction a generalizing b with
  | nil =>
    cases b with
    | nil => rfl
    | cons m b => exact absurd (List.cons.inj e).1.symm (lengthByte_ne_zero (labelsOk_cons.mp hb).1)
  | cons l a ih =>
    obtain ⟨hl, hls⟩ := labelsOk_cons.mp ha
    cases b with
    | nil => exact absurd (List.cons.inj e).1 (lengthByte_ne_zero hl)
    | cons m b =>
      obtain ⟨hm, hms⟩ := labelsOk_cons.mp hb
      simp only [wireLabels_cons, List.cons_append, List.append_assoc, List.cons.injEq] at e
      obtain ⟨hbyte, htail⟩ := e
      have hlen : l.length = m.length := by
        rw [← lengthByte_toNat hl, hbyte, lengthByte_toNat hm]
      obtain ⟨hlabel, hrest⟩ := List.append_inj htail hlen
      rw [hlabel, ih hls hms hrest]

theorem wireName_inj {a b : List Bytes} (ha : labelsOk a) (hb : labelsOk b)
    (e : wireName a = wireName b) : a = b := wireLabels_inj ha hb e

/-- Each label has a length byte where the joined name has a separator, and one length byte is left
over. -/
theorem wireLabels_length_join {ls : List Bytes} (hne : ls ≠ []) :
    (wireLabels ls).length = (join ls).length + 1 := by
  induction ls with
  | nil => exact absurd rfl hne
  | cons l ls ih =>
    by_cases hls : ls = []
    · simp [hls, join]
    · simp only [wireLabels_cons, join_cons l hls, List.length_append, List.length_cons, ih hls]
      omega

@[simp] theorem wireName_length (ls : List Bytes) :
    (wireName ls).length = (wireLabels ls).length + 1 := by
  rw [wireName, List.length_append, List.length_singleton]

/-- A name of valid labels is encoded to their wire form exactly when its pieces are these labels,
which is when none of them holds the separator (42_name.md R111). -/
theorem nameEnc_join_iff {ls : List Bytes} (h : labelsOk ls) :
    nameEnc (join ls) = .ok (wireName ls) ↔ labelsClean ls := by
  constructor
  · intro e
    rcases nameEnc_eq (join ls) with ⟨hk, e'⟩ | ⟨_, e'⟩
    · have pieces : nameLabels (join ls) = ls :=
        wireName_inj hk h (Except.ok.inj (e'.symm.trans e))
      exact pieces ▸ nameLabels_clean (join ls)
    · cases e'.symm.trans e
  · intro hc
    have pieces := nameLabels_join h hc
    rw [nameEnc_ok (by rwa [pieces]), pieces]

/-! ### Where the decoder stops -/

theorem lengthClass_pointer {n : Byte} (h : 0xC0 ≤ n.toNat) : lengthClass n = .pointer := by
  rw [lengthClass, if_neg (by omega), if_pos h]

theorem lengthClass_invalid {n : Byte} (h : 0x40 ≤ n.toNat) (h' : n.toNat < 0xC0) :
    lengthClass n = .invalid := by
  rw [lengthClass, if_neg (by omega), if_neg (by omega), if_pos h]

theorem lengthClass_label {n : Byte} (h : 1 ≤ n.toNat) (h' : n.toNat < 0x40) :
    lengthClass n = .label := by
  rw [lengthClass, if_neg (by omega), if_neg (by omega), if_neg (by omega)]

section Stops

variable {buf : Bytes} {c : Nat} {n : Byte} (passes : Nat) (labels : List Bytes)

theorem nameDecLoop_past_end (h : buf.length ≤ c) :
    nameDecLoop buf (passes + 1) c labels = .error .truncated := by
  have hread : memRead 8 buf c = .error .truncated := memRead_error (by omega)
  simp only [nameDecLoop, hread]

theorem nameDecLoop_pointer (hread : memRead 8 buf c = .ok n) (hn : lengthClass n = .pointer) :
    nameDecLoop buf (passes + 1) c labels = .error .unsupportedCompression := by
  simp only [nameDecLoop, hread, hn]

theorem nameDecLoop_invalid (hread : memRead 8 buf c = .ok n) (hn : lengthClass n = .invalid) :
    nameDecLoop buf (passes + 1) c labels = .error .invalidLabel := by
  simp only [nameDecLoop, hread, hn]

theorem nameDecLoop_label_short (hread : memRead 8 buf c = .ok n) (hn : lengthClass n = .label)
    (short : buf.length < c + 1 + n.toNat) :
    nameDecLoop buf (passes + 1) c labels = .error .truncated := by
  simp only [nameDecLoop, hread, hn, readBytes_error short]

end Stops

/-- After any number of whole labels, the decoder reports what the next pass reports (42_name.md
R106). -/
theorem nameDec_labels_error {p rest : Bytes} {ls : List Bytes} {e : ErrorKind} (h : labelsOk ls)
    (next : ∀ passes, nameDecLoop (p ++ wireLabels ls ++ rest) (passes + 1)
      (p ++ wireLabels ls).length ls = .error e) :
    nameDec (p ++ wireLabels ls ++ rest) p.length = .error e := by
  obtain ⟨passes, stops⟩ := nameDec_labels p ls rest h
  rw [← List.append_assoc, ← List.length_append] at stops
  exact stops.trans (next passes)

/-! ### The operations on their operands -/

theorem exec_nameEnc_ok {s : State} {n : Bytes} (e : s.req.name = some n)
    (h : labelsOk (nameLabels n)) :
    exec .nameEnc s = .next (s.answered (okOutput (wireName (nameLabels n)))) :=
  (exec_nameEnc e).trans (conclude_encoded_ok (nameEnc_ok h) s)

theorem exec_nameEnc_error {s : State} {n : Bytes} (e : s.req.name = some n)
    (h : ¬ labelsOk (nameLabels n)) :
    exec .nameEnc s = .next (s.answered (failed .invalidLabel)) :=
  (exec_nameEnc e).trans (conclude_encoded_error (nameEnc_error h) s)

/-- NAME_DEC of a wire form, whatever stands before and after (42_name.md R103). -/
theorem exec_nameDec_wireName {s : State} {p t : Bytes} {ls : List Bytes} (h : labelsOk ls)
    (e : s.req.ibuf = some (p ++ wireName ls ++ t)) (o : s.req.off = some p.length) :
    exec .nameDec s = .next (s.answered { Rsp.blank with
      status := some .ok
      name := some (join ls)
      newoff := some (p.length + (wireName ls).length) }) :=
  (exec_nameDec e o).trans (conclude_map_ok (nameDec_wireName p ls t h) _ s)

theorem exec_nameDec_error {s : State} {buf : Bytes} {off : Nat} {k : ErrorKind}
    (e : s.req.ibuf = some buf) (o : s.req.off = some off) (h : nameDec buf off = .error k) :
    exec .nameDec s = .next (s.answered (failed k)) :=
  (exec_nameDec e o).trans (conclude_map_error h _ s)

/-! ### The obligations -/

/-- Settles O18: a wire form decodes; else the pass after the whole labels stops, at the end of the
buffer or at the class of the length byte it reads. -/
theorem nameDecDecodesOrReportsTheFirstError :
    Obligations.NameDecDecodesOrReportsTheFirstError := by
  refine ⟨fun s p ls t h => exec_nameDec_wireName h, fun s p ls rest h hb ho => ?_⟩
  have stops {k : ErrorKind} (next : ∀ passes, nameDecLoop (p ++ wireLabels ls ++ rest)
      (passes + 1) (p ++ wireLabels ls).length ls = .error k) :
      exec .nameDec s = .next (s.answered (failed k)) :=
    exec_nameDec_error hb ho (nameDec_labels_error h next)
  refine ⟨?_, ?_⟩
  · rintro rfl
    exact stops fun passes => nameDecLoop_past_end passes ls (by simp)
  · rintro n r rfl
    have hread := memRead_byte (p ++ wireLabels ls) r n
    refine ⟨fun hp => ?_, fun hi hi' => ?_, fun hl hl' short => ?_⟩
    · exact stops fun passes => nameDecLoop_pointer passes ls hread (lengthClass_pointer hp)
    · exact stops fun passes => nameDecLoop_invalid passes ls hread (lengthClass_invalid hi hi')
    · refine stops fun passes =>
        nameDecLoop_label_short passes ls hread (lengthClass_label hl hl') ?_
      rw [List.length_append, List.length_cons]
      omega

/-- Settles O16, clause by clause. -/
theorem splitAndJoinAreInverse : Obligations.SplitAndJoinAreInverse :=
  ⟨fun _ => split_join_self, join_split_self, split_pieces_clean, length_split, rfl, fun _ => rfl,
    fun l _ => join_cons l⟩

/-- Settles O17: the root has no labels, and the labels of another name are its pieces. -/
theorem nameEncWritesLabelsOrInvalidLabel : Obligations.NameEncWritesLabelsOrInvalidLabel := by
  intro s name e
  refine ⟨?_, fun hne hk => ?_, fun hne hk => ?_⟩
  · rintro rfl
    exact exec_nameEnc_ok e (by simp [labelsOk])
  · rw [← nameLabels_of_ne_nil hne] at hk ⊢
    exact exec_nameEnc_ok e hk
  · rw [← nameLabels_of_ne_nil hne] at hk
    exact exec_nameEnc_error e hk

/-- Settles O20: the encoder writes the wire form of the labels, which the decoder reads at any
place. -/
theorem nameSurvivesEncodeThenDecode : Obligations.NameSurvivesEncodeThenDecode := by
  intro ls hk hc
  have pieces := nameLabels_join hk hc
  refine ⟨wireName ls, fun s e => ?_, fun s p t => exec_nameDec_wireName hk⟩
  have written := exec_nameEnc_ok e (by rwa [pieces])
  rwa [pieces] at written

/-- Settles O21: the decoder has read a wire form, which ends in the terminator. -/
theorem decodedNameSpansItsWireForm : Obligations.DecodedNameSpansItsWireForm := by
  intro buf off s off' h
  obtain ⟨p, ls, t, hk, rfl, rfl, rfl, rfl⟩ := nameDec_ok h
  have last : (p ++ wireName ls ++ t)[(p ++ wireLabels ls).length]? = some 0x00#8 := by
    simp [wireName]
  refine ⟨by simp, by simp, ?_, ls, hk, rfl, ?_, (nameEnc_join_iff hk).mpr,
    mt (nameEnc_join_iff hk).mp⟩
  · rwa [wireName_length, ← Nat.add_assoc, Nat.add_sub_cancel, ← List.length_append]
  · rw [Nat.add_sub_cancel_left]
    exact drop_take_middle p (wireName ls) t

/-- Settles O22: an output of NAME_ENC is the wire form of the labels of its name. -/
theorem encodedNameLength : Obligations.EncodedNameLength := by
  intro s t name b e h hb
  by_cases hk : labelsOk (nameLabels name)
  · cases (exec_nameEnc_ok e hk).symm.trans h
    cases hb
    refine ⟨?_, fun hne => ?_⟩
    · rintro rfl
      rfl
    · have pieces := nameLabels_of_ne_nil hne
      rw [pieces, wireName_length, wireLabels_length_join (split_ne_nil name), join_split_self]
  · cases (exec_nameEnc_error e hk).symm.trans h
    cases hb

end Sys2Proof.Machine
end

section
/-! SUPPORT. The question operations (43_question.md): what they answer on their operands. -/

namespace Sys2Proof.Machine

/-! ### Questions made of labels -/

/-- The labels of a joined name are those it was joined of (42_name.md R110), so the question
encodes to their wire form. -/
theorem qEnc_join {ls : List Bytes} (h : labelsOk ls) (hc : labelsClean ls) (qt qc : U16) :
    qEnc { name := join ls, qtype := qt, qclass := qc } = .ok (wireQuestion ls qt qc) := by
  have pieces : nameLabels (join ls) = ls := nameLabels_join h hc
  have accepted : questionOk { name := join ls, qtype := qt, qclass := qc } := by
    rwa [questionOk, pieces]
  rw [qEnc_ok accepted, pieces]

/-- A whole name with fewer than 4 bytes after it (43_question.md R117). -/
theorem qDec_wireName_short {p t : Bytes} {ls : List Bytes} (h : labelsOk ls)
    (short : t.length < 4) : qDec (p ++ wireName ls ++ t) p.length = .error .truncated := by
  refine qDec_short (nameDec_wireName p ls t h) ?_
  simp only [List.length_append]
  omega

/-! ### The operations on their operands -/

theorem exec_qEnc_ok {s : State} {q : Question} {b : Bytes} (e : s.req.q = some q)
    (h : qEnc q = .ok b) : exec .qEnc s = .next (s.answered (okOutput b)) :=
  (exec_qEnc e).trans (conclude_encoded_ok h s)

theorem exec_qEnc_error {s : State} {q : Question} {k : ErrorKind} (e : s.req.q = some q)
    (h : qEnc q = .error k) : exec .qEnc s = .next (s.answered (failed k)) :=
  (exec_qEnc e).trans (conclude_encoded_error h s)

/-- Q_DEC of a wire form, whatever stands before and after (43_question.md R117). -/
theorem exec_qDec_wireQuestion {s : State} {p t : Bytes} {ls : List Bytes} {qt qc : U16}
    (h : labelsOk ls) (e : s.req.ibuf = some (p ++ wireQuestion ls qt qc ++ t))
    (o : s.req.off = some p.length) :
    exec .qDec s = .next (s.answered { Rsp.blank with
      status := some .ok
      q := some { name := join ls, qtype := qt, qclass := qc }
      newoff := some (p.length + (wireQuestion ls qt qc).length) }) :=
  (exec_qDec e o).trans (conclude_map_ok (qDec_wire p ls qt qc t h) _ s)

theorem exec_qDec_error {s : State} {buf : Bytes} {off : Nat} {k : ErrorKind}
    (e : s.req.ibuf = some buf) (o : s.req.off = some off) (h : qDec buf off = .error k) :
    exec .qDec s = .next (s.answered (failed k)) :=
  (exec_qDec e o).trans (conclude_map_error h _ s)

/-! ### The obligations -/

/-- Settles O23: a question is accepted exactly when the labels of its name are valid. -/
theorem qEncWritesTheWireQuestion : Obligations.QEncWritesTheWireQuestion :=
  fun _ _ e => ⟨fun h => exec_qEnc_ok e (qEnc_ok h), fun h => exec_qEnc_error e (qEnc_error h)⟩

/-- Settles O24: a wire form decodes, an error of the name ends the question, and a whole name may
be followed by too few bytes. -/
theorem qDecReadsNameThenFourBytes : Obligations.QDecReadsNameThenFourBytes := by
  refine ⟨fun s p ls qt qc t h => exec_qDec_wireQuestion h, fun s buf off k e o h => ?_,
    fun s p ls t h short e o => ?_⟩
  · exact exec_qDec_error e o (qDec_name_error h)
  · exact exec_qDec_error e o (qDec_wireName_short h short)

/-- Settles O25: the encoder writes the wire form of the question, which the decoder reads at any
place. -/
theorem questionSurvivesEncodeThenDecode : Obligations.QuestionSurvivesEncodeThenDecode :=
  fun ls qt qc h hc => ⟨wireQuestion ls qt qc, fun _ e => exec_qEnc_ok e (qEnc_join h hc qt qc),
    fun _ _ _ => exec_qDec_wireQuestion h⟩

end Sys2Proof.Machine
end

section
/-! SUPPORT. The resource record operations (44_resource_record.md): what they answer on their
operands. -/

namespace Sys2Proof.Machine

/-! ### The data checks of the encoder -/

/-- The two causes of InvalidRData (44_resource_record.md R125): the declared length is not that of
the data, or an A record does not have 4 bytes of data. -/
theorem dataOk_eq_false_iff (typeA : U16) (r : ResourceRecord) :
    r.dataOk typeA = false ↔
      r.rdlength.toNat ≠ r.rdata.length ∨ (r.rtype = typeA ∧ r.rdata.length ≠ 4) := by
  rw [← Bool.not_eq_true, dataOk_iff, not_and_or, Classical.not_imp]

/-- Only the name makes `rrEnc` report InvalidLabel (44_resource_record.md R126). -/
theorem rrEnc_eq_invalidLabel_iff (typeA : U16) (r : ResourceRecord) :
    rrEnc typeA r = .error .invalidLabel ↔ ¬ labelsOk (nameLabels r.name) := by
  refine ⟨fun e hk => ?_, rrEnc_name_error typeA⟩
  rcases rrEnc_cases typeA r with ⟨hn, _⟩ | ⟨_, _, e'⟩ | ⟨_, e'⟩
  · exact hn hk
  · cases e'.symm.trans e
  · cases e'.symm.trans e

theorem rrEnc_error {typeA : U16} {r : ResourceRecord} (h : ¬ recordOk typeA r) :
    rrEnc typeA r = .error .invalidLabel ∨ rrEnc typeA r = .error .invalidRData := by
  rcases rrEnc_cases typeA r with ⟨_, e⟩ | ⟨_, _, e⟩ | ⟨hk, _⟩
  · exact .inl e
  · exact .inr e
  · exact absurd hk h

/-- The labels of a joined name are those it was joined of (42_name.md R110), so the record encodes
to the wire form with these labels. -/
theorem rrEnc_join {typeA : U16} {ls : List Bytes} {r : ResourceRecord} (h : labelsOk ls)
    (hc : labelsClean ls) (hn : r.name = join ls) (hd : r.dataOk typeA = true) :
    rrEnc typeA r = .ok (wireRecord ls r) := by
  have pieces : nameLabels r.name = ls := by rw [hn, nameLabels_join h hc]
  have accepted : recordOk typeA r := ⟨by rwa [pieces], hd⟩
  rw [rrEnc_ok accepted, pieces]

/-! ### Where the decoder stops -/

/-- A whole name with fewer than 10 bytes after it (44_resource_record.md R127). -/
theorem rrDec_wireName_short {p t : Bytes} {ls : List Bytes} (h : labelsOk ls)
    (short : t.length < 10) : rrDec (p ++ wireName ls ++ t) p.length = .error .truncated := by
  refine rrDec_short (nameDec_wireName p ls t h) ?_
  simp only [List.length_append]
  omega

/-- Fewer bytes of data than the record declares, at the end of the buffer (44_resource_record.md
R127). -/
theorem rrDec_wireRecord_short {p : Bytes} {ls : List Bytes} {r : ResourceRecord} (h : labelsOk ls)
    (short : r.rdata.length < r.rdlength.toNat) :
    rrDec (p ++ wireRecord ls r) p.length = .error .truncated := by
  have fixed := rrDec_fixed p ls r.rtype r.rclass r.ttl r.rdlength r.rdata h
  rw [if_pos short] at fixed
  simpa only [wireRecord, List.append_assoc] using fixed

/-! ### The operations on their operands -/

theorem exec_rrEnc_ok {s : State} {r : ResourceRecord} {b : Bytes} (e : s.req.rr = some r)
    (h : rrEnc Config.typeA r = .ok b) : exec .rrEnc s = .next (s.answered (okOutput b)) :=
  (exec_rrEnc e).trans (conclude_encoded_ok h s)

theorem exec_rrEnc_error {s : State} {r : ResourceRecord} {k : ErrorKind} (e : s.req.rr = some r)
    (h : rrEnc Config.typeA r = .error k) : exec .rrEnc s = .next (s.answered (failed k)) :=
  (exec_rrEnc e).trans (conclude_encoded_error h s)

/-- RR_DEC of a wire form, whatever stands before and after (44_resource_record.md R127). -/
theorem exec_rrDec_wireRecord {s : State} {p t : Bytes} {ls : List Bytes} {r : ResourceRecord}
    (h : labelsOk ls) (hn : r.name = join ls) (hd : r.rdata.length = r.rdlength.toNat)
    (e : s.req.ibuf = some (p ++ wireRecord ls r ++ t)) (o : s.req.off = some p.length) :
    exec .rrDec s = .next (s.answered { Rsp.blank with
      status := some .ok
      rr := some r
      newoff := some (p.length + (wireRecord ls r).length) }) :=
  (exec_rrDec e o).trans (conclude_map_ok (rrDec_wire p ls r t h hn hd) _ s)

theorem exec_rrDec_error {s : State} {buf : Bytes} {off : Nat} {k : ErrorKind}
    (e : s.req.ibuf = some buf) (o : s.req.off = some off) (h : rrDec buf off = .error k) :
    exec .rrDec s = .next (s.answered (failed k)) :=
  (exec_rrDec e o).trans (conclude_map_error h _ s)

/-! ### The obligations -/

/-- Settles O26: the name is checked first, then the two causes of InvalidRData; a record that
passes both checks is accepted. -/
theorem rrEncChecksThenWritesTheWireRecord : Obligations.RrEncChecksThenWritesTheWireRecord := by
  intro s r e
  have rejected (hk : labelsOk (nameLabels r.name)) (hd : r.dataOk Config.typeA = false) :
      exec .rrEnc s = .next (s.answered (failed .invalidRData)) :=
    exec_rrEnc_error e (rrEnc_data_error hk hd)
  refine ⟨fun hn => ?name, fun hk hlen => ?length, fun hk ha h4 => ?size, fun hk hlen h4 => ?ok⟩
  case name => exact exec_rrEnc_error e (rrEnc_name_error _ hn)
  case length => exact rejected hk ((dataOk_eq_false_iff _ r).mpr (.inl hlen))
  case size => exact rejected hk ((dataOk_eq_false_iff _ r).mpr (.inr ⟨ha, h4⟩))
  case ok => exact exec_rrEnc_ok e (rrEnc_ok ⟨hk, (dataOk_iff _ r).mpr ⟨hlen, h4⟩⟩)

/-- Settles O27, clause by clause. -/
theorem recordAcceptedForAnyTypeCode : Obligations.RecordAcceptedForAnyTypeCode :=
  fun typeA r => ⟨rrEnc_ok, rrEnc_error, rrEnc_eq_invalidLabel_iff typeA r⟩

/-- Settles O28: a wire form decodes; else the name fails, or a whole name is followed by too few
fixed bytes, or these by too few bytes of data. -/
theorem rrDecReadsNameFixedBytesThenData : Obligations.RrDecReadsNameFixedBytesThenData := by
  refine ⟨fun s p ls r t h => exec_rrDec_wireRecord h, fun s buf off k e o h => ?name,
    fun s p ls t h short e o => ?fixed, fun s p ls r h short e o => ?data⟩
  case name => exact exec_rrDec_error e o (rrDec_name_error h)
  case fixed => exact exec_rrDec_error e o (rrDec_wireName_short h short)
  case data => exact exec_rrDec_error e o (rrDec_wireRecord_short h short)

/-- Settles O29: the encoder writes the wire form of the record, whose declared length is that of
its data, so the decoder reads it at any place. -/
theorem recordSurvivesEncodeThenDecode : Obligations.RecordSurvivesEncodeThenDecode := by
  intro ls r h hc hn hd
  obtain ⟨declared, _⟩ := (dataOk_iff _ r).mp hd
  exact ⟨wireRecord ls r, fun s e => exec_rrEnc_ok e (rrEnc_join h hc hn hd),
    fun s p t => exec_rrDec_wireRecord h hn declared.symm⟩

end Sys2Proof.Machine
end

section
/-! SUPPORT. The message operations (45_message.md): what they answer on their operands, how the
questions a message is built from lie in it, and its length. -/

namespace Sys2Proof.Machine

/-! ### Building a message -/

section Build

variable {s : State} {h : Header} {qs : List Question} {rs : List ResourceRecord}

theorem exec_msgBuild_ok (eh : s.req.h = some h) (eq : s.req.qlist = some qs)
    (er : s.req.rrlist = some rs) (hq : ∀ q ∈ qs, questionOk q)
    (hr : ∀ r ∈ rs, recordOk Config.typeA r) :
    exec .msgBuild s =
      .next (s.answered (okOutput (wireHeader h ++ wireQuestions qs ++ wireRecords rs))) :=
  (exec_msgBuild eh eq er).trans (conclude_encoded_ok (msgBuild_ok h hq hr) s)

theorem exec_msgBuild_error {k : ErrorKind} (eh : s.req.h = some h) (eq : s.req.qlist = some qs)
    (er : s.req.rrlist = some rs) (e : msgBuild Config.typeA h qs rs = .error k) :
    exec .msgBuild s = .next (s.answered (failed k)) :=
  (exec_msgBuild eh eq er).trans (conclude_encoded_error e s)

/-- Everything MSG_BUILD can answer (45_message.md R135). -/
theorem exec_msgBuild_cases (eh : s.req.h = some h) (eq : s.req.qlist = some qs)
    (er : s.req.rrlist = some rs) :
    ((∀ q ∈ qs, questionOk q) ∧ (∀ r ∈ rs, recordOk Config.typeA r) ∧
      exec .msgBuild s =
        .next (s.answered (okOutput (wireHeader h ++ wireQuestions qs ++ wireRecords rs)))) ∨
    exec .msgBuild s = .next (s.answered (failed .invalidLabel)) ∨
    exec .msgBuild s = .next (s.answered (failed .invalidRData)) := by
  rcases msgBuild_cases Config.typeA h qs rs with ⟨hq, hr, _⟩ | e | e
  · exact .inl ⟨hq, hr, exec_msgBuild_ok eh eq er hq hr⟩
  · exact .inr (.inl (exec_msgBuild_error eh eq er e))
  · exact .inr (.inr (exec_msgBuild_error eh eq er e))

/-- An output of MSG_BUILD: every element is accepted, and it is the wire form of the message. -/
theorem exec_msgBuild_output {b : Bytes} (eh : s.req.h = some h) (eq : s.req.qlist = some qs)
    (er : s.req.rrlist = some rs) (e : exec .msgBuild s = .next (s.answered (okOutput b))) :
    (∀ q ∈ qs, questionOk q) ∧ (∀ r ∈ rs, recordOk Config.typeA r) ∧
      b = wireHeader h ++ wireQuestions qs ++ wireRecords rs := by
  rcases exec_msgBuild_cases eh eq er with ⟨hq, hr, e'⟩ | e' | e'
  · cases e.symm.trans e'
    exact ⟨hq, hr, rfl⟩
  · cases e.symm.trans e'
  · cases e.symm.trans e'

end Build

/-! ### The questions of a message, in it -/

/-- A question as the encoder lays it in a message (43_question.md R115). -/
def rawOfQuestion (q : Question) : RawQuestion := (nameLabels q.name, q.qtype, q.qclass)

theorem record_rawOfQuestion (q : Question) : (rawOfQuestion q).record = q := by
  rw [RawQuestion.record, rawOfQuestion, join_nameLabels]

theorem wireRaw_map_rawOfQuestion (qs : List Question) :
    wireRaw (qs.map rawOfQuestion) = wireQuestions qs := List.flatMap_map ..

theorem map_record_map_rawOfQuestion (qs : List Question) :
    (qs.map rawOfQuestion).map RawQuestion.record = qs :=
  List.map_map.trans (List.map_id'' record_rawOfQuestion qs)

/-! ### Parsing a message -/

/-- A question that does not decode gives its error, after any number that do (45_message.md
R138). -/
theorem msgParse_raw_error {h : Header} {xs : List RawQuestion} {t : Bytes} {e : ErrorKind}
    (hk : ∀ x ∈ xs, labelsOk x.1) (hn : xs.length < h.qdcount.toNat)
    (next : qDec (wireHeader h ++ wireRaw xs ++ t) (12 + (wireRaw xs).length) = .error e) :
    msgParse (wireHeader h ++ wireRaw xs ++ t) = .error e := by
  obtain ⟨n, count⟩ := Nat.exists_eq_add_of_lt hn
  have passed := parseQuestions_raw xs hk (wireHeader h) t (n + 1)
  rw [wireHeader_length, ← Nat.add_assoc, ← count, ← List.append_assoc, parseQuestions, next]
    at passed
  rw [List.append_assoc] at passed ⊢
  rw [msgParse_header, passed]
  rfl

/-- MSG_PARSE of a header and exactly its questions, whatever follows (45_message.md R138,
R139). -/
theorem exec_msgParse_raw {s : State} {h : Header} {xs : List RawQuestion} {t : Bytes}
    (hk : ∀ x ∈ xs, labelsOk x.1) (hn : xs.length = h.qdcount.toNat)
    (e : s.req.ibuf = some (wireHeader h ++ wireRaw xs ++ t)) :
    exec .msgParse s = .next (s.answered { Rsp.blank with
      status := some .ok, h := some h, qlist := some (xs.map RawQuestion.record) }) :=
  (exec_msgParse e).trans (conclude_map_ok (msgParse_raw h xs t hk hn) _ s)

theorem exec_msgParse_error {s : State} {buf : Bytes} {k : ErrorKind}
    (e : s.req.ibuf = some buf) (h : msgParse buf = .error k) :
    exec .msgParse s = .next (s.answered (failed k)) :=
  (exec_msgParse e).trans (conclude_map_error h _ s)

/-- MSG_PARSE of accepted questions in their wire form, whatever follows (45_message.md R143). -/
theorem exec_msgParse_wireQuestions {s : State} {h : Header} {qs : List Question} {t : Bytes}
    (hq : ∀ q ∈ qs, questionOk q) (hn : h.qdcount.toNat = qs.length)
    (e : s.req.ibuf = some (wireHeader h ++ wireQuestions qs ++ t)) :
    exec .msgParse s = .next (s.answered { Rsp.blank with
      status := some .ok, h := some h, qlist := some qs }) := by
  have valid : ∀ x ∈ qs.map rawOfQuestion, labelsOk x.1 := List.forall_mem_map.mpr hq
  rw [← wireRaw_map_rawOfQuestion] at e
  have parsed := exec_msgParse_raw valid (by rw [List.length_map, hn]) e
  rwa [map_record_map_rawOfQuestion] at parsed

/-! ### The length of a message -/

theorem wireQuestion_length (ls : List Bytes) (qt qc : U16) :
    (wireQuestion ls qt qc).length = (wireName ls).length + 4 := by
  simp only [wireQuestion, List.length_append, bytes16_length]

theorem wireRecord_length (ls : List Bytes) (r : ResourceRecord) :
    (wireRecord ls r).length = (wireName ls).length + 10 + r.rdata.length := by
  simp only [wireRecord, List.length_append, bytes16_length, bytes32_length]

theorem wireQuestions_length (qs : List Question) :
    (wireQuestions qs).length =
      (qs.map fun q => (wireName (nameLabels q.name)).length + 4).sum := by
  simp only [wireQuestions, List.length_flatMap, wireQuestion_length]

/-- The declared length of an accepted record is that of its data (44_resource_record.md R125). -/
theorem wireRecords_length {typeA : U16} {rs : List ResourceRecord}
    (hr : ∀ r ∈ rs, recordOk typeA r) :
    (wireRecords rs).length =
      (rs.map fun r => (wireName (nameLabels r.name)).length + 10 + r.rdlength.toNat).sum := by
  rw [wireRecords, List.length_flatMap]
  congr 1
  refine List.map_congr_left fun r hmem => ?_
  obtain ⟨_, data⟩ := hr r hmem
  obtain ⟨declared, _⟩ := (dataOk_iff typeA r).mp data
  rw [wireRecord_length, declared]

/-! ### The obligations -/

/-- Settles O33: a built message is the wire form of its questions between its header and its
records, and the parser reads the questions back from it. That the message was built already says
that the names of the questions are made of valid labels. -/
theorem parseInvertsBuild : Obligations.ParseInvertsBuild := by
  intro s s' h qs rs t b count _ eh eq er built e
  obtain ⟨hq, _, rfl⟩ := exec_msgBuild_output eh eq er built
  rw [List.append_assoc] at e
  exact exec_msgParse_wireQuestions hq count e

/-- Settles O30: every element encodes, or the message fails with the error of one. -/
theorem msgBuildConcatenatesWireForms : Obligations.MsgBuildConcatenatesWireForms := by
  intro s h qs rs eh eq er
  refine ⟨exec_msgBuild_ok eh eq er, fun bad => ?_⟩
  rcases exec_msgBuild_cases eh eq er with ⟨hq, hr, _⟩ | fails
  · rcases bad with ⟨q, hmem, hn⟩ | ⟨r, hmem, hn⟩
    · exact absurd (hq q hmem) hn
    · exact absurd (hr r hmem) hn
  · exact fails

/-- Settles O31: a question fails before any record is looked at, and a record fails by its name
before its data. -/
theorem msgBuildReportsTheFirstFailure : Obligations.MsgBuildReportsTheFirstFailure := by
  intro s h qs rs eh eq er
  refine ⟨?question, ?record⟩
  case question =>
    rintro a q b rfl _ hn
    exact exec_msgBuild_error eh eq er (msgBuild_question_error _ h rs (by simp) hn)
  case record =>
    rintro a r b rfl hq ha
    have reported {k : ErrorKind} (fails : rrEnc Config.typeA r = .error k) :
        exec .msgBuild s = .next (s.answered (failed k)) :=
      exec_msgBuild_error eh eq er (msgBuild_record_error h b hq ha fails)
    exact ⟨fun hn => reported (rrEnc_name_error _ hn),
      fun hn hd => reported (rrEnc_data_error hn hd)⟩

/-- Settles O32: the header and its questions are read, or the header is short, or a question does
not decode. -/
theorem msgParseReadsItsQuestionsOrReportsTheFirstFailure :
    Obligations.MsgParseReadsItsQuestionsOrReportsTheFirstFailure :=
  ⟨fun _ _ _ _ => exec_msgParse_raw, fun _ _ e short => exec_msgParse_error e (msgParse_short short),
    fun _ _ _ _ _ hk hn e next => exec_msgParse_error e (msgParse_raw_error hk hn next)⟩

/-- Settles O34: the sections of a built message and their lengths. -/
theorem builtMessageLength : Obligations.BuiltMessageLength := by
  intro s h qs rs b eh eq er built
  obtain ⟨_, hr, rfl⟩ := exec_msgBuild_output eh eq er built
  rw [List.length_append, List.length_append, wireHeader_length, wireQuestions_length,
    wireRecords_length hr]

end Sys2Proof.Machine
end

section
/-! SUPPORT. The statuses (60_exceptions.md): their codes, the table of which operation reports
which, and the reserved codes. -/

namespace Sys2Proof.Machine

/-! ### The table of operations and statuses -/

/-- An operation's response holds a status of its row (60_exceptions.md R159). -/
theorem ResponseOf.status_mem {i : Instr} {r : Rsp} (h : ResponseOf i r) :
    ∃ st ∈ statusesOf i, r.status = some st := by
  rcases h with ⟨e, rfl, row⟩ | ⟨status, row, _, _, _⟩
  · exact ⟨.error e, row, rfl⟩
  · exact ⟨.ok, row, status⟩

/-- A buffer whose header counts one question, and whose question and record at offset 12 both
begin with the length byte `n`. With the terminator as `n` they are a whole question and a whole
record without data, each for the root. -/
def bufferStarting (n : Byte) : Bytes :=
  wireHeader { zeroHeader with qdcount := 1#16 } ++ n :: List.replicate 10 0x00#8

/-- A request with the operands of every operation: `name` is each name, `rdlength` is declared for
the empty data of each record, and `buf` is decoded from the end of its header on. -/
def requestWith (name : Bytes) (rdlength : U16) (buf : Bytes) : Req :=
  let q := { zeroQuestion with name := name }
  let rr := { zeroRecord with name := name, rdlength := rdlength }
  { op := none, h := some zeroHeader, name := some name, q := some q, rr := some rr,
    qlist := some [q], rrlist := some [rr], ibuf := some buf, off := some Config.hdrLen }

/-- One request for each status: the cause of an error (60_exceptions.md R155) stands in every
operand that can have it, and a reserved operation needs no operand. -/
def requestFor : Status → Req
  | .ok => requestWith [] 0#16 (bufferStarting 0x00#8)
  | .error .truncated => requestWith [] 0#16 []
  | .error .invalidLabel => requestWith [Config.sep] 0#16 (bufferStarting 0x40#8)
  | .error .invalidRData => requestWith [] 1#16 (bufferStarting 0x00#8)
  | .error .unsupportedCompression => requestWith [] 0#16 (bufferStarting 0xC0#8)
  | .error .illegalOperation => blankReq

/-- The operation `i` answers some request with `st`. -/
def Reports (i : Instr) (st : Status) : Prop :=
  ∃ s t, exec i s = .next t ∧ t.rsp.status = some st

/-- `Reports` by evaluating the operation on the request for the status. -/
theorem reports_of_eval {i : Instr} {st : Status} {t : State}
    (h : exec i { State.reset with req := requestFor st } = .next t)
    (hst : t.rsp.status = some st) : Reports i st := ⟨_, t, h, hst⟩

/-- Every operation answers the request for a status of its row with that status. -/
theorem reports_of_mem {i : Instr} {st : Status} (h : st ∈ statusesOf i) : Reports i st := by
  cases i with
  | hdrEnc =>
    obtain rfl := List.mem_singleton.mp h
    exact reports_of_eval rfl rfl
  | reservedAB op =>
    obtain rfl := List.mem_singleton.mp h
    exact reports_of_eval rfl rfl
  | reservedCF op =>
    obtain rfl := List.mem_singleton.mp h
    exact reports_of_eval rfl rfl
  | hdrDec | nameEnc | qEnc =>
    simp only [statusesOf, List.mem_cons, List.not_mem_nil, or_false] at h
    rcases h with rfl | rfl <;> exact reports_of_eval rfl rfl
  | rrEnc | msgBuild =>
    simp only [statusesOf, List.mem_cons, List.not_mem_nil, or_false] at h
    rcases h with rfl | rfl | rfl <;> exact reports_of_eval rfl rfl
  | nameDec | qDec | rrDec | msgParse =>
    simp only [statusesOf, List.mem_cons, List.not_mem_nil, or_false] at h
    rcases h with rfl | rfl | rfl | rfl <;> exact reports_of_eval rfl rfl

/-! ### The status codes -/

/-- The statuses in the order of their codes (60_exceptions.md R156). -/
def statusTable : List Status :=
  [.ok, .error .truncated, .error .invalidLabel, .error .invalidRData,
    .error .unsupportedCompression, .error .illegalOperation]

/-- The code of a status is its place in the table. -/
theorem statusTable_code (st : Status) : statusTable[st.code.toNat]? = some st := by
  cases st with
  | ok => rfl
  | error e => cases e <;> rfl

theorem statusCode_inj {a b : Status} (h : a.code = b.code) : a = b := by
  have ha := statusTable_code a
  rw [h, statusTable_code b] at ha
  exact (Option.some.inj ha).symm

theorem statusCode_lt (st : Status) : st.code.toNat < 6 :=
  (List.getElem?_eq_some_iff.mp (statusTable_code st)).1

/-! ### Reserved codes -/

/-- The codes 0xA to 0xF select the two reserved rows (30_encoding.md R66). -/
theorem decodeOp_reserved {w : U4} (h : 0xA ≤ w.toNat) :
    decodeOp w = .reservedAB w ∨ decodeOp w = .reservedCF w := by
  revert w; decide

theorem exec_reservedAB (op : U4) (s : State) :
    exec (.reservedAB op) s = .next (s.answered (failed .illegalOperation)) := rfl

theorem exec_reservedCF (op : U4) (s : State) :
    exec (.reservedCF op) s = .next (s.answered (failed .illegalOperation)) := rfl

/-! ### The obligations -/

/-- Settles O40: a response holds a status of its operation's row, and every operation whose row
has a status reports it for the one request of that status. -/
theorem statusTableIsExact : Obligations.StatusTableIsExact := by
  refine ⟨fun i s t h => ?_, fun i st => reports_of_mem⟩
  obtain ⟨r, rfl, response⟩ := exec_next h
  exact response.status_mem

/-- Settles O7: a code is a place in the table of six statuses. -/
theorem statusCodesAreTheTable : Obligations.StatusCodesAreTheTable :=
  ⟨rfl, rfl, rfl, rfl, rfl, rfl, fun _ _ => statusCode_inj, statusCode_lt⟩

/-- Settles O37: a running transaction of a reserved code is one of the two reserved operations. -/
theorem reservedCodesReportIllegalOperation :
    Obligations.ReservedCodesReportIllegalOperation := by
  refine ⟨exec_reservedAB, exec_reservedCF, fun s w running op reserved => ?_⟩
  rw [step_running running op]
  rcases decodeOp_reserved reserved with row | row <;> rw [row]
  · exact exec_reservedAB w s
  · exact exec_reservedCF w s

end Sys2Proof.Machine
end

section
/-! SUPPORT. Reset, waiting and running (70_reset_and_hazards.md sections 1 to 3), the completion of
a transaction, and the chain of decoders that agrees with the message parser (section 4). -/

namespace Sys2Proof.Machine

/-! ### The chain of decoders and the message parser -/

/-- One pass of the loop of `msgParse`: a question, and the rest from its returned offset on
(45_message.md R138). -/
theorem parseQuestions_succ_ok_iff {buf : Bytes} {n c : Nat} {qs : List Question} :
    parseQuestions buf (n + 1) c = .ok qs ↔
      ∃ q m rest, qDec buf c = .ok (q, m) ∧ parseQuestions buf n m = .ok rest ∧ q :: rest = qs := by
  rw [parseQuestions]
  cases hq : qDec buf c with
  | error e => simp [bind, Except.bind]
  | ok r =>
    obtain ⟨q, m⟩ := r
    cases hr : parseQuestions buf n m with
    | error e => simp [bind, Except.bind, hr]
    | ok rest => simp [bind, Except.bind, hr]

/-- The loop of `msgParse` is a chain of Q_DEC with one link for each pass. -/
theorem parseQuestions_ok_iff {buf : Bytes} {n c : Nat} {qs : List Question} :
    parseQuestions buf n c = .ok qs ↔ qs.length = n ∧ ∃ c', questionChain buf c qs c' := by
  induction n generalizing c qs with
  | zero =>
    cases qs with
    | nil => simp [parseQuestions, questionChain]
    | cons q qs => simp [parseQuestions]
  | succ n ih =>
    rw [parseQuestions_succ_ok_iff]
    constructor
    · rintro ⟨q, m, rest, hq, hrest, rfl⟩
      obtain ⟨count, c', chain⟩ := ih.mp hrest
      exact ⟨congrArg (· + 1) count, c', m, hq, chain⟩
    · rintro ⟨count, c', chain⟩
      cases qs with
      | nil => cases count
      | cons q rest =>
        obtain ⟨m, hq, chain⟩ := chain
        exact ⟨q, m, rest, hq, ih.mpr ⟨Nat.succ.inj count, c', chain⟩, rfl⟩

/-- `msgParse` is `hdrDec` and then the chain of its questions (45_message.md R138). -/
theorem msgParse_ok_iff {buf : Bytes} {h : Header} {qs : List Question} :
    msgParse buf = .ok (h, qs) ↔
      hdrDec buf = .ok h ∧ qs.length = h.qdcount.toNat ∧ ∃ c, questionChain buf 12 qs c := by
  rcases hdrDec_cases buf with ⟨short, e⟩ | ⟨h', t, rfl, e⟩
  · simp [msgParse_short short, e]
  · rw [msgParse_header, e, ← parseQuestions_ok_iff]
    constructor
    · intro parsed
      cases hq : parseQuestions (wireHeader h' ++ t) h'.qdcount.toNat 12 with
      | error k => rw [hq] at parsed; cases parsed
      | ok rest => rw [hq] at parsed; cases parsed; exact ⟨rfl, hq⟩
    · rintro ⟨⟨⟩, hq⟩
      rw [hq]
      rfl

/-- A decoder whose results tell its values apart answers a value exactly when it decodes it. -/
theorem conclude_map_ok_iff {α : Type} {r : Codec α} {f : α → Rsp} {a : α} {s : State}
    (hf : ∀ b, { f a with status := some Status.ok } = { f b with status := some .ok } → a = b) :
    conclude (r.map f) s = .next (s.answered { f a with status := some .ok }) ↔ r = .ok a := by
  refine ⟨fun h => ?_, fun h => conclude_map_ok h f s⟩
  obtain ⟨b, hr, same⟩ := conclude_map_status_ok h rfl
  rw [hr, hf b same]

/-! ### A step and a host move, by what they leave -/

/-- A next state of a step: the block waits, or a running transaction completes (10_state.md
R20). -/
theorem step_next {s t : State} (h : step s = .next t) :
    (s.running = false ∧ t = s) ∨ (s.running = true ∧ ∃ r, t = s.answered r) := by
  rcases stepWithin_next h with ⟨hw, rfl⟩ | ⟨w, hr, _, _, hx, _⟩
  · exact .inl ⟨hw, rfl⟩
  · obtain ⟨r, rfl, _⟩ := execAt_next hx
    exact .inr ⟨hr, r, rfl⟩

/-- A step writes no request field (10_state.md R23). -/
theorem step_req {s t : State} (h : step s = .next t) : t.req = s.req := by
  rcases step_next h with ⟨_, rfl⟩ | ⟨_, r, rfl⟩
  · rfl
  · rfl

/-- No move of the host but a reset writes RSP (10_state.md R30). -/
theorem hostMove_rsp {s t : State}
    (h : (∃ w, hostWrite w s = .next t) ∨ hostStart s = .next t ∨ ∃ r, present r s = .next t) :
    t.rsp = s.rsp := by
  rcases h with ⟨w, h⟩ | h | ⟨r, h⟩
  · rw [(hostWrite_next h).2]
  · obtain ⟨_, _, rfl⟩ := hostStart_next h; rfl
  · obtain ⟨_, _, rfl⟩ := present_next h; rfl

/-! ### The reads of the host -/

/-- Every read of a running block raises the one fault (log entry 6). -/
theorem readFault_running {s : State} (hr : s.running = true) (f : RspField) :
    readFault s f = some (.responsePending f) := by
  have pending {α : Type} (o : Option α) : faultOf (readRsp f o s) = some (.responsePending f) := by
    simp [readRsp, hr, faultOf]
  cases f <;> exact pending _

/-- A field that holds no value cannot be read, whatever the block does (10_state.md R29). -/
theorem readFault_ne_none {s : State} {f : RspField} (h : rspHolds s.rsp f = false) :
    readFault s f ≠ none := by
  cases hr : s.running with
  | true => simp [readFault_running hr]
  | false => simp [readFault_waiting hr, h]

/-! ### The state after reset (70_reset_and_hazards.md R175) -/

@[simp] theorem reqHolds_reset (f : ReqField) : reqHolds State.reset.req f = false := by
  cases f <;> rfl

@[simp] theorem rspHolds_reset (f : RspField) : rspHolds State.reset.rsp f = false := by
  cases f <;> rfl

theorem readFault_reset (f : RspField) : readFault State.reset f = some (.noValue f) := by
  simp [readFault_waiting (s := State.reset) rfl]

/-! ### The obligations -/

/-- Settles O35: the parser decodes what the header decoder and the chain decode, and each
operation answers what its decoder gives. -/
theorem decoderChainAgreesWithParse : Obligations.DecoderChainAgreesWithParse := by
  intro s buf h qs e
  have parsed := conclude_map_ok_iff (r := msgParse buf) (a := (h, qs)) (s := s)
    (f := fun r => { Rsp.blank with h := some r.1, qlist := some r.2 })
    fun b same => by cases same; rfl
  have decoded := conclude_map_ok_iff (r := hdrDec buf) (a := h) (s := s)
    (f := fun h => { Rsp.blank with h := some h }) fun b same => by cases same; rfl
  rw [exec_msgParse e, exec_hdrDec e]
  exact parsed.trans (msgParse_ok_iff.trans (and_congr_left' decoded.symm))

/-- Settles O42: a complete request holds the operands of its operation, whose response holds a
status. -/
theorem completeRequestCompletes : Obligations.CompleteRequestCompletes := by
  intro s hr hc
  obtain ⟨w, ho, held⟩ := (requestComplete_iff _).mp hc
  obtain ⟨r, hx, response⟩ := exec_response held
  obtain ⟨st, _, status⟩ := response.status_mem
  exact ⟨_, st, (step_running hr ho).trans hx, rfl, status⟩

/-- Settles O1: the host's moves leave RSP, a step leaves REQ, and a step that changes RSP completes
a transaction. -/
theorem resetHoldsNoValueAndReadsFault : Obligations.ResetHoldsNoValueAndReadsFault := by
  refine ⟨rfl, reqHolds_reset, rspHolds_reset, readFault_reset, fun s f => readFault_ne_none,
    fun s t move f empty => ?moves, fun s t f h empty full => ?completes,
    fun s t f h empty => ?request⟩
  case moves => rwa [hostMove_rsp move]
  case completes =>
    rcases step_next h with ⟨_, rfl⟩ | ⟨running, r, rfl⟩
    · cases empty.symm.trans full
    · exact ⟨running, rfl⟩
  case request =>
    rcases h with h | h
    · rwa [step_req h]
    · obtain ⟨_, _, rfl⟩ := hostStart_next h
      exact empty

/-- Settles O2: a step looks at the parameters of the block only where a transaction runs. -/
theorem waitingBlockStaysAsItIs : Obligations.WaitingBlockStaysAsItIs :=
  fun b s hw => ⟨by simp only [stepWithin, hw], step_waiting hw⟩

/-- Settles O44: no field of the state after reset holds a value, and no transaction runs. -/
theorem resetMeetsTheInvariant : Obligations.ResetMeetsTheInvariant := reset_inv

/-- Settles O47: each move of the host looks first at whether a transaction runs. -/
theorem runningTransactionAdmitsOnlyReset : Obligations.RunningTransactionAdmitsOnlyReset :=
  fun _ hr => ⟨fun _ => if_pos hr, fun _ => if_pos hr, if_pos hr, readFault_running hr, rfl⟩

end Sys2Proof.Machine
end
